-- ==== Sys2Proof/Word.lean ====
section
/-!
DEFINITION. The words of the ISO-TP engine (spec 00_scope.md R8, 30_encoding.md R60, R61): bytes, nibbles and
32-bit link identifiers.
-/

namespace Sys2Proof

/-- A byte, 0 to 255 (R8). -/
abbrev Byte := BitVec 8

/-- A 4-bit field: a frame type, a sequence number, a flow status, a Single Frame length (R61). -/
abbrev Nibble := BitVec 4

/-- A link identifier, "opaque" and 32 bits wide (R47, R60). It is no memory address. -/
abbrev Addr := BitVec 32

end Sys2Proof
end

