-- ==== Sys2Proof/Config.lean ====
section
/-!
DEFINITION. The configuration record `cfg` of 00_scope.md R5 and 10_state.md R25: ten fields fixed at session
construction. No value of this file is a free value in the guide's sense: the spec gives every result as a function of
`cfg`, and statements quantify over every legal `cfg`.
-/

namespace Sys2Proof

/-- The ten fields of R5. -/
structure Config where
  /-- `CAP`, the most data bytes a frame has, header included; 3 to 16. -/
  cap : Nat
  /-- `TX_ADDR`, put on every frame the engine emits. -/
  txAddr : Addr
  /-- `RX_ADDR`, compared with the address of every arriving frame. -/
  rxAddr : Addr
  /-- `N_BS_TICKS`, the wait for Flow Control; 1 to 2^32-1. -/
  nBsTicks : Nat
  /-- `N_CR_TICKS`, the wait for a Consecutive Frame; 1 to 2^32-1. -/
  nCrTicks : Nat
  /-- `T_XFER_TICKS`, the overall transfer timeout; 0 to 2^32-1, 0 switches it off. -/
  tXferTicks : Nat
  /-- `FC_EN`, whether the flow-control handshake is used. -/
  fcEn : Bool
  /-- `RX_BS`, the block size the Reassembler advertises. -/
  rxBs : Byte
  /-- `RX_STMIN`, the raw separation-time byte the Reassembler advertises. -/
  rxStmin : Byte
  /-- `RX_BUF_CAP`, the bytes the Transfer Buffer holds; 0 to 4095. -/
  rxBufCap : Nat
  deriving DecidableEq, Repr

/-- The longest payload the 12-bit First Frame length can announce (R6, D5). -/
def maxPayload : Nat := 4095

/-- The largest value of a 32-bit tick count (R5). -/
def maxTicks : Nat := 2 ^ 32 - 1

/-- This hardware (R5): `CAP` 8, `FC_EN` 1, `RX_BS` 0, `RX_STMIN` 0, `RX_BUF_CAP` 4095.
DESIGN CHOICE (log entry 2), unsafe: the five OPEN parameters. The addresses are those of the spec's examples, the
timeouts those R5 suggests. No statement rests on them: each holds for every legal configuration. -/
def Config.hardware : Config where
  cap := 8
  txAddr := 0x7E0#32
  rxAddr := 0x7E8#32
  nBsTicks := 10000
  nCrTicks := 10000
  tXferTicks := 0
  fcEn := true
  rxBs := 0#8
  rxStmin := 0#8
  rxBufCap := 4095

end Sys2Proof
end

