-- ==== Sys2Proof/Syntax.lean ====
section
/-!
DEFINITION. The instructions: the frame forms of spec/opcode_table.json, one constructor a row (30_encoding.md R61, R74).
An instruction of this hardware is a frame that arrives from `RX_ADDR`; the row is chosen by `data[0]`, the operands are
the bits of `data[0]` the row leaves free and `tail`, the bytes after `data[0]`. The rejected rows are instructions too:
their meaning is the error the spec names (log entry 7). The port events have no encoding (R75) and stand in Machine/Ports.lean.
-/

namespace Sys2Proof

/-- A frame form of the opcode table with its operands. -/
inductive Instr where
  /-- Single Frame, `0000llll`: `dl` is `SF_DL` (R62, R81). -/
  | sf (dl : Nibble) (tail : List Byte)
  /-- First Frame, `0001hhhh`: `hi` is `FF_DL[11:8]`; `tail` begins with `FF_DL[7:0]` (R63, R82). -/
  | ff (hi : Nibble) (tail : List Byte)
  /-- Consecutive Frame, `0010ssss`: `sn` is `SN`, `tail` the payload bytes (R64, R83). -/
  | cf (sn : Nibble) (tail : List Byte)
  /-- Flow Control ContinueToSend, `00110000`: `tail` begins with `BS`, `STmin` (R65, R84). -/
  | fcCts (tail : List Byte)
  /-- Flow Control Wait, `00110001` (R65, R84). -/
  | fcWait (tail : List Byte)
  /-- Flow Control Overflow, `00110010` (R65, R84). -/
  | fcOvflw (tail : List Byte)
  /-- Flow Control with the unrecognized status 3, `00110011` (R84). -/
  | fcRsvd3 (tail : List Byte)
  /-- Flow Control with an unrecognized status 4 to 7, `001101xx` (R84). -/
  | fcRsvd47 (low : BitVec 2) (tail : List Byte)
  /-- Flow Control with an unrecognized status 8 to 15, `00111xxx` (R84). -/
  | fcRsvd815 (low : BitVec 3) (tail : List Byte)
  /-- Unsupported frame type 4 to 7, `01xxxxxx` (R85). -/
  | unsup47 (low : BitVec 6) (tail : List Byte)
  /-- Unsupported frame type 8 to 15, `1xxxxxxx` (R85). -/
  | unsup815 (low : BitVec 7) (tail : List Byte)
  deriving DecidableEq, Repr

/-- The bytes of the frame after `data[0]`. -/
def Instr.tail : Instr → List Byte
  | .sf _ t | .ff _ t | .cf _ t | .fcCts t | .fcWait t | .fcOvflw t | .fcRsvd3 t
  | .fcRsvd47 _ t | .fcRsvd815 _ t | .unsup47 _ t | .unsup815 _ t => t

end Sys2Proof
end

