-- ==== Sys2Proof/WellFormed.lean ====
section
/-!
DEFINITION. What may be presented to the engine: a legal configuration (00_scope.md R5, 10_state.md R25), a frame of at
most `CAP` bytes (30_encoding.md R60, D34) and a payload of at most 4095 bytes (D5). The engine has no behaviour outside
these (93_implementation_defined.md U19, U20).
-/

namespace Sys2Proof

/-- The legal ranges of R5; `FC_EN`, `RX_BS`, `RX_STMIN` and the addresses are legal by their types. -/
abbrev Config.Legal (c : Config) : Prop :=
  (3 ≤ c.cap ∧ c.cap ≤ 16) ∧ (1 ≤ c.nBsTicks ∧ c.nBsTicks ≤ maxTicks) ∧
    (1 ≤ c.nCrTicks ∧ c.nCrTicks ≤ maxTicks) ∧ c.tXferTicks ≤ maxTicks ∧ c.rxBufCap ≤ maxPayload

/-- A frame the link can present (R60): at most `CAP` bytes. -/
abbrev FrameFits (cap : Nat) (d : List Byte) : Prop := d.length ≤ cap

/-- A payload the host can present (R28, D5): at most 4095 bytes. -/
abbrev PayloadFits (p : List Byte) : Prop := p.length ≤ maxPayload

/-- An instruction a frame of at most `cap` bytes can be. -/
abbrev Instr.WellFormed (cap : Nat) (i : Instr) : Prop := 1 + i.tail.length ≤ cap

end Sys2Proof
end

