-- ==== Sys2Proof/Decode.lean ====
section
/-!
DEFINITION. The frame codec: which row of the opcode table a frame is (30_encoding.md R74), what `decode` says of it
(40_codec.md R80 to R85), the encoder of instructions and the formatters `enc_SF`, `enc_FF`, `enc_CF`, `enc_FC` (R86 to
R89). Everything here is a function of its operands and `CAP` alone (R92).
-/

namespace Sys2Proof

/-! ### Bit fields of a byte (R8) -/

/-- `b[7:4]`. -/
def hiNibble (b : Byte) : Nibble := b.extractLsb' 4 4

/-- `b[3:0]`. -/
def loNibble (b : Byte) : Nibble := b.extractLsb' 0 4

/-! ### From a frame to its row of the opcode table -/

/-- Why a byte sequence is no instruction. -/
inductive Reject where
  /-- No byte 0, hence no row; the engine reads it as `Err MalformedFrame` (R80). -/
  | emptyFrame
  /-- More than `CAP` bytes: it cannot be presented (R60, D34). -/
  | frameTooLong
  deriving DecidableEq, Repr

/-- The row of a frame of type 3 by its flow status: the three legal values, then the rejected ranges (R74). -/
def decodeFcForm (lo : Nibble) (tail : List Byte) : Instr :=
  if lo = 0#4 then .fcCts tail
  else if lo = 1#4 then .fcWait tail
  else if lo = 2#4 then .fcOvflw tail
  else if lo = 3#4 then .fcRsvd3 tail
  else if lo.msb then .fcRsvd815 (lo.extractLsb' 0 3) tail
  else .fcRsvd47 (lo.extractLsb' 0 2) tail

/-- The row whose pattern `data[0]` matches (R61, R74). -/
def decodeForm (b : Byte) (tail : List Byte) : Instr :=
  if hiNibble b = 0#4 then .sf (loNibble b) tail
  else if hiNibble b = 1#4 then .ff (loNibble b) tail
  else if hiNibble b = 2#4 then .cf (loNibble b) tail
  else if hiNibble b = 3#4 then decodeFcForm (loNibble b) tail
  else if b.msb then .unsup815 (b.extractLsb' 0 7) tail
  else .unsup47 (b.extractLsb' 0 6) tail

/-- The decoder, total on any bytes: the instruction a frame is, or why it is none. -/
def decodeFrame (cap : Nat) (d : List Byte) : Except Reject Instr :=
  if cap < d.length then .error .frameTooLong
  else match d with
    | [] => .error .emptyFrame
    | b :: tail => .ok (decodeForm b tail)

/-- The encoder: the bytes of an instruction, `data[0]` as its row's pattern has it. -/
def encode : Instr → List Byte
  | .sf dl tail => (0x0#4 ++ dl) :: tail
  | .ff hi tail => (0x1#4 ++ hi) :: tail
  | .cf sn tail => (0x2#4 ++ sn) :: tail
  | .fcCts tail => 0x30#8 :: tail
  | .fcWait tail => 0x31#8 :: tail
  | .fcOvflw tail => 0x32#8 :: tail
  | .fcRsvd3 tail => 0x33#8 :: tail
  | .fcRsvd47 low tail => (0b001101#6 ++ low) :: tail
  | .fcRsvd815 low tail => (0b00111#5 ++ low) :: tail
  | .unsup47 low tail => (0b01#2 ++ low) :: tail
  | .unsup815 low tail => (0b1#1 ++ low) :: tail

/-! ### The opcode table itself -/

/-- One row of spec/opcode_table.json: `data[0] &&& mask = pattern`. -/
structure OpcodeRow where
  mnemonic : String
  mask : Byte
  pattern : Byte
  deriving DecidableEq, Repr

/-- Whether `data[0]` belongs to a row. -/
def OpcodeRow.matches (r : OpcodeRow) (b : Byte) : Bool := b &&& r.mask == r.pattern

/-- The row an instruction stands for. -/
def rowOf : Instr → OpcodeRow
  | .sf _ _ => ⟨"SF", 0xF0#8, 0x00#8⟩
  | .ff _ _ => ⟨"FF", 0xF0#8, 0x10#8⟩
  | .cf _ _ => ⟨"CF", 0xF0#8, 0x20#8⟩
  | .fcCts _ => ⟨"FC.CTS", 0xFF#8, 0x30#8⟩
  | .fcWait _ => ⟨"FC.WAIT", 0xFF#8, 0x31#8⟩
  | .fcOvflw _ => ⟨"FC.OVFLW", 0xFF#8, 0x32#8⟩
  | .fcRsvd3 _ => ⟨"FC.RSVD_3", 0xFF#8, 0x33#8⟩
  | .fcRsvd47 _ _ => ⟨"FC.RSVD_4_7", 0xFC#8, 0x34#8⟩
  | .fcRsvd815 _ _ => ⟨"FC.RSVD_8_15", 0xF8#8, 0x38#8⟩
  | .unsup47 _ _ => ⟨"UNSUP_4_7", 0xC0#8, 0x40#8⟩
  | .unsup815 _ _ => ⟨"UNSUP_8_15", 0x80#8, 0x80#8⟩

/-- The eleven rows. -/
def opcodeTable : List OpcodeRow :=
  [rowOf (.sf 0 []), rowOf (.ff 0 []), rowOf (.cf 0 []), rowOf (.fcCts []), rowOf (.fcWait []), rowOf (.fcOvflw []),
   rowOf (.fcRsvd3 []), rowOf (.fcRsvd47 0 []), rowOf (.fcRsvd815 0 []), rowOf (.unsup47 0 []), rowOf (.unsup815 0 [])]

/-! ### What the codec says of a frame: `decode` (R80 to R85) -/

/-- The three flow statuses (R66). -/
inductive FlowStatus where
  | cts
  | wait
  | ovflw
  deriving DecidableEq, Repr

/-- The codec's two errors (R80, R92). -/
inductive CodecError where
  | malformedFrame
  | unsupportedFrameType
  deriving DecidableEq, Repr

/-- What `decode` returns: one of the four decoded forms of R73, or an error. -/
inductive Verdict where
  | sf (p : List Byte)
  | ff (len : Nat) (chunk : List Byte)
  | cf (sn : Nibble) (p : List Byte)
  | fc (fs : FlowStatus) (bs st : Byte)
  | err (e : CodecError)
  deriving DecidableEq, Repr

/-- `n(fs)` of R89. PRESUMED (log entry 11), unsafe: the numbers are ISO 15765-2's, marked by R66 as from general
knowledge; `flowStatus` and this function are the one table that holds them. -/
def flowCode : FlowStatus → Nibble
  | .cts => 0#4
  | .wait => 1#4
  | .ovflw => 2#4

/-- The flow status a low nibble names; 3 to 15 are unrecognized (R66). PRESUMED (log entry 11), unsafe. -/
def flowStatus (lo : Nibble) : Option FlowStatus :=
  if lo = 0#4 then some .cts else if lo = 1#4 then some .wait else if lo = 2#4 then some .ovflw else none

/-- R81: a Single Frame whose declared length exceeds the bytes present is malformed; bytes after it are ignored. -/
def decodeSF (lo : Nibble) (tail : List Byte) : Verdict :=
  if tail.length < lo.toNat then .err .malformedFrame else .sf (tail.take lo.toNat)

/-- R82: the length is 12 bits, high part in byte 0 (R44, R69), and must exceed `CAP - 2`. -/
def decodeFF (cap : Nat) (lo : Nibble) (tail : List Byte) : Verdict :=
  match tail with
  | [] => .err .malformedFrame
  | b1 :: chunk =>
    if (lo ++ b1).toNat ≤ cap - 2 then .err .malformedFrame else .ff (lo ++ b1).toNat chunk

/-- R83: every Consecutive Frame decodes, an empty payload included. -/
def decodeCF (lo : Nibble) (tail : List Byte) : Verdict := .cf lo tail

/-- R84: the length test first, then the status; bytes after `STmin` are ignored. -/
def decodeFC (lo : Nibble) (tail : List Byte) : Verdict :=
  match tail with
  | bs :: st :: _ =>
    match flowStatus lo with
    | some fs => .fc fs bs st
    | none => .err .malformedFrame
  | _ => .err .malformedFrame

/-- R85: types 4 to 15, whatever the other bits and bytes. -/
def decodeUnsupported : Verdict := .err .unsupportedFrameType

/-- `decode(d)` as R80 writes it: the empty frame, then the type nibble. The machine reaches the same verdicts through
the rows of the opcode table. -/
def codecDecode (cap : Nat) (d : List Byte) : Verdict :=
  match d with
  | [] => .err .malformedFrame
  | b :: tail =>
    if hiNibble b = 0#4 then decodeSF (loNibble b) tail
    else if hiNibble b = 1#4 then decodeFF cap (loNibble b) tail
    else if hiNibble b = 2#4 then decodeCF (loNibble b) tail
    else if hiNibble b = 3#4 then decodeFC (loNibble b) tail
    else decodeUnsupported

/-! ### The formatter (R86 to R89)

Outside its precondition a formatter has no value (40_codec.md section 2): `none`. -/

/-- R86 `enc_SF(p)`. -/
def encSF (cap : Nat) (p : List Byte) : Option (List Byte) :=
  if p.length ≤ cap - 1 then some ((0x00#8 ||| BitVec.ofNat 8 p.length) :: p) else none

/-- R87 `enc_FF(L, c)`: high part of the length first (R69). -/
def encFF (cap len : Nat) (chunk : List Byte) : Option (List Byte) :=
  if cap - 2 < len ∧ len ≤ maxPayload ∧ chunk.length = cap - 2 then
    some ((0x10#8 ||| BitVec.ofNat 8 (len >>> 8)) :: BitVec.ofNat 8 len :: chunk)
  else none

/-- R88 `enc_CF(sn, p)`. -/
def encCF (cap : Nat) (sn : Nibble) (p : List Byte) : Option (List Byte) :=
  if 1 ≤ p.length ∧ p.length ≤ cap - 1 then some ((0x20#8 ||| sn.zeroExtend 8) :: p) else none

/-- R89 `enc_FC(fs, bs, st)`: exactly three bytes, `st` raw. -/
def encFC (fs : FlowStatus) (bs st : Byte) : List Byte :=
  [0x30#8 ||| (flowCode fs).zeroExtend 8, bs, st]

/-! ### Words numbered as the opcode table numbers them -/

/-- The frame of `len` bytes whose bits are `w`: byte `k` is bits `8k+7 .. 8k`, and every bit from `nbits` on is 0. -/
def tableFrame (len nbits w : Nat) : List Byte :=
  (List.range len).map fun k => BitVec.ofNat 8 ((w % 2 ^ nbits) >>> (8 * k))

/-- The instruction the decoder reads from a full frame of this hardware whose bits are `w` (log entry 17). -/
def decodeTableWord (nbits w : Nat) : Option Instr :=
  match decodeFrame Config.hardware.cap (tableFrame Config.hardware.cap nbits w) with
  | .ok i => some i
  | .error _ => none

end Sys2Proof
end

