-- ==== Sys2Proof/Machine/Ports.lean ====
section
/-!
DEFINITION. The ports: the events the engine takes, the actions it emits, and the errors it reports (10_state.md R28,
R29; 60_exceptions.md R160). They are typed transactions without an encoding (30_encoding.md R75).
-/

namespace Sys2Proof.Machine

/-- The closed list of errors, R160. Each aborts the transfer it belongs to and is reported once. -/
inductive Error where
  | malformedFrame
  | unsupportedFrameType
  | sequenceError
  | flowControlTimeout
  | reassemblyTimeout
  | peerOverflow
  | protocolViolation
  | linkError
  deriving DecidableEq, Repr

/-- What `TX_DONE` carries (R29). -/
inductive TxResult where
  | ok
  | err (e : Error)
  | aborted
  deriving DecidableEq, Repr

/-- An input event (R28). -/
inductive Event where
  | reset
  | send (p : List Byte)
  | abortTx
  | abortRx
  | linkRx (a : Addr) (d : List Byte)
  | tick
  deriving DecidableEq, Repr

/-- An output action (R29). -/
inductive Action where
  | linkTx (a : Addr) (d : List Byte)
  | txDone (r : TxResult)
  | sendRefused
  | rxPayload (p : List Byte)
  | rxError (e : Error)
  | rxAborted
  deriving DecidableEq, Repr

/-- One offer to the engine: an event, and the answer `link_ok` the link gives to the one frame the step may present
(R29; `true` means the link has accepted it). Both are inputs under no law (R141). -/
structure Stimulus where
  event : Event
  linkOk : Bool
  deriving DecidableEq, Repr

end Sys2Proof.Machine
end

