-- ==== Sys2Proof/Machine/State.lean ====
section
/-!
DEFINITION. The state: the two halves of 10_state.md R10, the configuration (R25, R26), and the model's own port fields
(log entries 1, 3, 5, 6). Lengths, offsets and tick counts are natural numbers whose widths are an invariant (log entry 9).
-/

namespace Sys2Proof.Machine

/-- `tx_state`, R11. -/
inductive TxState where
  /-- `TX_IDLE`: no send in flight. -/
  | idle
  /-- `TX_WAIT_FC`: waiting for a Flow Control frame. -/
  | waitFc
  /-- `TX_SEND_CF`: emitting Consecutive Frames, one per due tick. -/
  | sendCf
  deriving DecidableEq, Repr

/-- `rx_state`, R12. -/
inductive RxState where
  /-- `RX_IDLE`. -/
  | idle
  /-- `RX_AWAIT_CF`: a reception is in progress. -/
  | awaitCf
  deriving DecidableEq, Repr

/-- The transmit half, owned by the Segmenter (R10). -/
structure TxHalf where
  /-- `tx_state`. -/
  state : TxState
  /-- `tx_buf`: the payload being sent (R23). -/
  buf : List Byte
  /-- `tx_len`: its length (R15). -/
  len : Nat
  /-- `tx_off`: how many of its bytes the link has accepted (R15). -/
  off : Nat
  /-- `tx_sn`: the sequence number of the next Consecutive Frame (R13). -/
  sn : Nibble
  /-- `tx_bs`: the block size of the last ContinueToSend, 0 unlimited (R17). -/
  bs : Nat
  /-- `tx_bs_rem`: Consecutive Frames still allowed in the block (R17). -/
  bsRem : Nat
  /-- `tx_st`: the separation time in ticks (R18). -/
  st : Nat
  /-- `tx_gap`: ticks before the next Consecutive Frame may go out (R18). -/
  gap : Nat
  /-- `tx_tmr`: ticks left of the wait for Flow Control (R19). -/
  tmr : Nat
  /-- `tx_total`: ticks left of the overall transfer timeout (R20). -/
  total : Nat
  deriving DecidableEq, Repr

/-- The receive half, owned by the Reassembler (R10). -/
structure RxHalf where
  /-- `rx_state`. -/
  state : RxState
  /-- `rx_buf`: the Transfer Buffer; its fill count is its length (R24). -/
  buf : List Byte
  /-- `rx_len`: the length the First Frame declared (R16). -/
  len : Nat
  /-- `rx_sn`: the sequence number expected next (R14). -/
  sn : Nibble
  /-- `rx_tmr`: ticks left of the wait for a Consecutive Frame (R21). -/
  tmr : Nat
  /-- `rx_bs_rem`: Consecutive Frames before the next Flow Control is due (R22). -/
  bsRem : Nat
  deriving DecidableEq, Repr

/-- The machine. -/
structure State where
  /-- `cfg`; no rule writes it (R26). -/
  cfg : Config
  tx : TxHalf
  rx : RxHalf
  /-- The model's own: the events still to be offered, next first (log entry 3). -/
  input : List Stimulus
  /-- The model's own: `link_ok` of the step being taken (log entry 5). -/
  linkOk : Bool
  /-- The model's own: every output action so far, oldest first (log entry 6). -/
  out : List Action
  deriving DecidableEq, Repr

/-- The engine never stops with a fault: its step is total (R141), it never halts (R150), and each of its errors is a
next state (R169). No constructor, so nothing raises one; safe (log entry 16). -/
inductive Fault where
  deriving DecidableEq, Repr

/-- Why the model has no behaviour. -/
inductive Refusal where
  /-- An instruction without a meaning; raised by no arm of `exec`. Safe. -/
  | notModelled (mnemonic : String)
  /-- `cfg` is outside its legal ranges: "the model refuses it" (R25, U20). Raised by every step. Safe. -/
  | illegalConfig
  /-- A `SEND` payload of more than 4095 bytes cannot be presented (D5, U19). Raised by the step that is offered it. Safe. -/
  | payloadTooLong
  /-- A `LINK_RX` frame of more than `CAP` bytes cannot be presented (D34, U19). Raised by the step that is offered it. Safe. -/
  | frameTooLong
  /-- A formatter called outside its precondition "has no value: a model makes it partial or gives it a refusal result"
  (40_codec.md section 2). Raised by `SEND` and `TICK`, in states no run reaches only (log entry 15). Safe. -/
  | formatterPrecondition
  deriving DecidableEq, Repr

/-- What a meaning answers. -/
abbrev Result := Host.Outcome State Fault Refusal

/-- The transmit half at its reset values (R32), which every end of a send restores (R170). -/
def TxHalf.reset : TxHalf where
  state := .idle
  buf := []
  len := 0
  off := 0
  sn := 0#4
  bs := 0
  bsRem := 0
  st := 0
  gap := 0
  tmr := 0
  total := 0

/-- The receive half at its reset values (R32), which every end of a reception restores (R171). -/
def RxHalf.reset : RxHalf where
  state := .idle
  buf := []
  len := 0
  sn := 0#4
  tmr := 0
  bsRem := 0

/-- The engine at power-up, "the state after `RESET`" (R191), in a given configuration, with nothing offered yet. -/
def State.powerUp (cfg : Config) : State where
  cfg := cfg
  tx := .reset
  rx := .reset
  input := []
  linkOk := true
  out := []

/-- The machine right after reset (R32) with this hardware's configuration (R5, log entry 2). -/
def State.reset : State := .powerUp .hardware

end Sys2Proof.Machine
end

