-- ==== Sys2Proof/Machine/Flags.lean ====
section
/-!
DEFINITION. The status of the engine. It has no condition codes and no sticky flags (10_state.md R27): two derived
signals, the numbers the spec gives the states (R11, R12) and the errors (60_exceptions.md R160), and quiescence (R150).
-/

namespace Sys2Proof.Machine

/-- `tx_busy` (R27). -/
def txBusy (s : State) : Bool := s.tx.state != .idle

/-- `rx_busy` (R27). -/
def rxBusy (s : State) : Bool := s.rx.state != .idle

/-- A quiescent state: both machines idle (R150). -/
def quiescent (s : State) : Bool := !txBusy s && !rxBusy s

/-- The encoding of `tx_state` (R11). -/
def txStateCode : TxState → Nat
  | .idle => 0
  | .waitFc => 1
  | .sendCf => 2

/-- The encoding of `rx_state` (R12). -/
def rxStateCode : RxState → Nat
  | .idle => 0
  | .awaitCf => 1

/-- The numeric error codes (R160, D22). -/
def errorCode : Error → Nat
  | .malformedFrame => 1
  | .unsupportedFrameType => 2
  | .sequenceError => 3
  | .flowControlTimeout => 4
  | .reassemblyTimeout => 5
  | .peerOverflow => 6
  | .protocolViolation => 7
  | .linkError => 8

/-- The code a host sees for a finished send: 0 for `Ok`, the error's code for `Err` (R160); `Aborted` has none (R178). -/
def txResultCode : TxResult → Option Nat
  | .ok => some 0
  | .err e => some (errorCode e)
  | .aborted => none

/-- The error the codec returns, as one of the eight (R161, R162). -/
def codecError : CodecError → Error
  | .malformedFrame => .malformedFrame
  | .unsupportedFrameType => .unsupportedFrameType

end Sys2Proof.Machine
end

