-- ==== Sys2Proof/Machine/Operands.lean ====
section
/-!
DEFINITION. The operand forms of the engine: the buffer primitives (20_memory.md R41, R42; the clearing of R43 is in Ops.lean), the separation time
(40_codec.md R90), the modulo-16 sequence numbers (R53), the down-counters (R56) and the frame counts (R55).
-/

namespace Sys2Proof.Machine

/-- `BufSlice(off, n)` is `tx_buf[off : off+n]` (R41). -/
def bufSlice (t : TxHalf) (off n : Nat) : List Byte := (t.buf.drop off).take n

/-- How many bytes of a payload slice `BufAppendCapped` keeps: `min(len(p), rx_len - len(rx_buf))` (R42). -/
def appendRoom (r : RxHalf) (p : List Byte) : Nat := min p.length (r.len - r.buf.length)

/-- `BufAppendCapped(p)` (R42): the bytes beyond the declared length are dropped. -/
def bufAppendCapped (r : RxHalf) (p : List Byte) : RxHalf := { r with buf := r.buf ++ p.take (appendRoom r p) }

/-- One byte of `tx_buf`, where there is one (R40). -/
def txByte (s : State) (i : Nat) : Option Byte := s.tx.buf[i]?

/-- One byte of `rx_buf`, where there is one (R40). -/
def rxByte (s : State) (i : Nat) : Option Byte := s.rx.buf[i]?

/-- The buffers' canonical form: neither holds more bytes than it has room for (R40). A buffer is the list of its bytes,
byte `i` at position `i`, so equal buffers are equal data (log entry 10). -/
abbrev Memory.wf (s : State) : Prop := s.tx.buf.length ≤ maxPayload ∧ s.rx.buf.length ≤ s.cfg.rxBufCap

/-- `st_ticks(b)` (R90): milliseconds, then hundreds of microseconds; every other byte reads as the longest (D9). -/
def stTicks (b : Byte) : Nat :=
  if b.toNat ≤ 0x7F then b.toNat * 10
  else if 0xF1 ≤ b.toNat ∧ b.toNat ≤ 0xF9 then b.toNat - 0xF0
  else 1270

/-- The sequence number after `sn`, modulo 16 (R53): 15 is followed by 0 (C2). -/
def nextSn (sn : Nibble) : Nibble := sn + 1#4

/-- A down-counter's decrement: by exactly 1 and never below 0 (R56, log entry 13). -/
def countDown (n : Nat) : Nat := n - 1

/-- How many bytes the next Consecutive Frame carries: `min(CAP-1, tx_len - tx_off)` (R109). -/
def cfBytes (cap : Nat) (t : TxHalf) : Nat := min (cap - 1) (t.len - t.off)

/-- The number of Consecutive Frames of a payload of `n >= CAP` bytes: `ceil((n - (CAP-2)) / (CAP-1))` (R55). -/
def cfCount (cap n : Nat) : Nat := (n - (cap - 2) + (cap - 2)) / (cap - 1)

end Sys2Proof.Machine
end

