-- ==== Sys2Proof/Machine/Ops.lean ====
section
/-!
DEFINITION. The named operations every rule is written with: emitting an action, presenting a frame, ending a transfer,
and raising an error (60_exceptions.md R170, R171), which is this engine's taking of an exception. There is no return
(R172): the half is idle in the same step.
-/

namespace Sys2Proof.Machine

/-- `emit X` (R8): the actions of a step stand in the order emitted. -/
def emit (a : Action) (s : State) : State := { s with out := s.out ++ [a] }

/-- `emit LINK_TX(TX_ADDR, d)`: the frame is handed to the link, whose answer is `linkOk` (R29, R47). -/
def presentFrame (d : List Byte) (s : State) : State := emit (.linkTx s.cfg.txAddr d) s

/-- Clearing the transmit half: `tx_state <- TX_IDLE`, `tx_buf <- []` (R43), every other `tx` register to 0 (R170). -/
def clearTx (s : State) : State := { s with tx := .reset }

/-- Clearing the receive half: `rx_state <- RX_IDLE`, `BufClear()` (R43), every other `rx` register to 0 (R171). -/
def clearRx (s : State) : State := { s with rx := .reset }

/-- A send ends with result `r`: the half is cleared and `TX_DONE(r)` is emitted (R170). -/
def endSend (r : TxResult) (s : State) : State := emit (.txDone r) (clearTx s)

/-- `raise_tx E` (R170): nothing is saved, nothing is sent to the peer, the `rx` half is not touched. -/
def raiseTx (e : Error) (s : State) : State := endSend (.err e) s

/-- A reception ends with the answer `a`: the half is cleared after `a` is formed (R171). -/
def endReception (a : Action) (s : State) : State := emit a (clearRx s)

/-- `raise_rx E` (R171): the bytes received so far are lost, the `tx` half is not touched. -/
def raiseRx (e : Error) (s : State) : State := endReception (.rxError e) s

/-- The `RESET` event (R190): both halves to their reset values, `cfg` unchanged, no output. -/
def resetHalves (s : State) : State := clearRx (clearTx s)

/-- The step takes one event: the rest stays offered, and the link's answer is the one that came with it. -/
def takeStimulus (x : Stimulus) (rest : List Stimulus) (s : State) : State :=
  { s with input := rest, linkOk := x.linkOk }

end Sys2Proof.Machine
end

