-- ==== Sys2Proof/Machine/Reassembler.lean ====
section
/-!
DEFINITION. The Reassembler (42_reassembler.md R120 to R136): what a decoded frame, `TICK` and `ABORT_RX` do to the
receive half. No rule here reads or writes a `tx` register (R146).
-/

namespace Sys2Proof.Machine

/-- R121 in `RX_IDLE`, R130 during a reception: a Single Frame. -/
def reaSingle (p : List Byte) (s : State) : State :=
  match s.rx.state with
  | .idle => emit (.rxPayload p) s
  | .awaitCf => raiseRx .protocolViolation s

/-- The half after an accepted First Frame (R122). -/
def rxStarted (cfg : Config) (len : Nat) (chunk : List Byte) : RxHalf where
  state := .awaitCf
  buf := chunk.take (min chunk.length len)
  len := len
  sn := 1#4
  tmr := cfg.nCrTicks
  bsRem := cfg.rxBs.toNat

/-- The Flow Control frame the Reassembler emits: its fields are always `RX_BS`, `RX_STMIN` (R122, R123, R128). -/
def presentFlow (fs : FlowStatus) (s : State) : State := presentFrame (encFC fs s.cfg.rxBs s.cfg.rxStmin) s

/-- R122: a First Frame that fits; the reception starts unless the link refuses the answer (R133). Without the
handshake nothing is emitted (R136). -/
def reaFirstFits (len : Nat) (chunk : List Byte) (s : State) : State :=
  if s.cfg.fcEn then
    if s.linkOk then { presentFlow .cts s with rx := rxStarted s.cfg len chunk }
    else emit (.rxError .linkError) (presentFlow .cts s)
  else { s with rx := rxStarted s.cfg len chunk }

/-- R123: a First Frame that does not fit is answered with Overflow and not recorded. -/
def reaFirstTooLong (s : State) : State :=
  if s.cfg.fcEn then
    if s.linkOk then presentFlow .ovflw s else emit (.rxError .linkError) (presentFlow .ovflw s)
  else s

/-- A First Frame: R122 or R123 in `RX_IDLE`, R130 during a reception. -/
def reaFirst (len : Nat) (chunk : List Byte) (s : State) : State :=
  match s.rx.state with
  | .idle => if len ≤ s.cfg.rxBufCap then reaFirstFits len chunk s else reaFirstTooLong s
  | .awaitCf => raiseRx .protocolViolation s

/-- R127 `complete()`: the payload is handed over whole and the half is cleared. -/
def reaComplete (s : State) : State := endReception (.rxPayload s.rx.buf) s

/-- R128 `block_fc()`: after every `RX_BS`-th accepted frame the peer is told to continue. -/
def reaBlockFc (s : State) : State :=
  if s.cfg.fcEn ∧ 0 < s.cfg.rxBs.toNat then
    if countDown s.rx.bsRem = 0 then
      let s := presentFlow .cts { s with rx := { s.rx with bsRem := s.cfg.rxBs.toNat } }
      if s.linkOk then s else raiseRx .linkError s
    else { s with rx := { s.rx with bsRem := countDown s.rx.bsRem } }
  else s

/-- R126: the expected Consecutive Frame. -/
def reaExpected (p : List Byte) (s : State) : State :=
  let s := { s with rx := { bufAppendCapped s.rx p with sn := nextSn s.rx.sn } }
  if s.rx.buf.length = s.rx.len then reaComplete s
  else reaBlockFc { s with rx := { s.rx with tmr := s.cfg.nCrTicks } }

/-- A Consecutive Frame: dropped in `RX_IDLE` (R124), else R126 or, with the wrong number, R129. -/
def reaConsecutive (sn : Nibble) (p : List Byte) (s : State) : State :=
  match s.rx.state with
  | .idle => s
  | .awaitCf => if sn = s.rx.sn then reaExpected p s else raiseRx .sequenceError s

/-- A Flow Control frame the Segmenter does not take: dropped in `RX_IDLE` (R124), else R130. -/
def reaFlow (s : State) : State :=
  match s.rx.state with
  | .idle => s
  | .awaitCf => raiseRx .protocolViolation s

/-- A frame `decode` rejects: its error is reported in `RX_IDLE` (R125); during a reception it is a protocol violation
and the codec's own error is not reported (R131, C8). -/
def reaUndecodable (e : CodecError) (s : State) : State :=
  match s.rx.state with
  | .idle => emit (.rxError (codecError e)) s
  | .awaitCf => raiseRx .protocolViolation s

/-- `ABORT_RX` (R134): an idle half ignores it. -/
def reaAbort (s : State) : State :=
  match s.rx.state with
  | .idle => s
  | .awaitCf => endReception .rxAborted s

/-- `rx_tick` (R132, R143): the wait for a Consecutive Frame. -/
def reaTick (s : State) : State :=
  match s.rx.state with
  | .idle => s
  | .awaitCf =>
    if countDown s.rx.tmr = 0 then raiseRx .reassemblyTimeout s
    else { s with rx := { s.rx with tmr := countDown s.rx.tmr } }

end Sys2Proof.Machine
end

