-- ==== Sys2Proof/Machine/Segmenter.lean ====
section
/-!
DEFINITION. The Segmenter (41_segmenter.md R100 to R116): what `SEND`, `ABORT_TX`, `TICK` and a Flow Control frame do to
the transmit half. No rule here reads or writes an `rx` register (R146).
-/

namespace Sys2Proof.Machine

/-- R101: a payload that fits one frame; the half stays idle. -/
def segSendSingle (p : List Byte) (s : State) : Result :=
  match encSF s.cfg.cap p with
  | none => .refused .formatterPrecondition
  | some d =>
    .next (emit (.txDone (if s.linkOk then .ok else .err .linkError)) (presentFrame d s))

/-- The half after an accepted First Frame (R102); without the handshake it goes straight to sending, as if a
ContinueToSend with block size and separation 0 had arrived (R113). -/
def txStarted (cfg : Config) (p : List Byte) (t : TxHalf) : TxHalf :=
  let t := { t with buf := p, len := p.length, off := cfg.cap - 2, sn := 1#4, total := cfg.tXferTicks }
  if cfg.fcEn then { t with state := .waitFc, tmr := cfg.nBsTicks }
  else { t with state := .sendCf, bs := 0, bsRem := 0, st := 0, gap := 0 }

/-- R102: a payload that needs segmenting. When the link refuses the First Frame nothing is written (R111). -/
def segSendFirst (p : List Byte) (s : State) : Result :=
  match encFF s.cfg.cap p.length (p.take (s.cfg.cap - 2)) with
  | none => .refused .formatterPrecondition
  | some d =>
    if s.linkOk then .next { presentFrame d s with tx := txStarted s.cfg p s.tx }
    else .next (emit (.txDone (.err .linkError)) (presentFrame d s))

/-- R103: a second `SEND` is refused and changes nothing. -/
def segSendBusy (s : State) : State := emit .sendRefused s

/-- `SEND(p)` (R148). -/
def segSend (p : List Byte) (s : State) : Result :=
  if s.tx.state = .idle then
    if p.length ≤ s.cfg.cap - 1 then segSendSingle p s else segSendFirst p s
  else .next (segSendBusy s)

/-- `ABORT_TX` (R112): an idle half ignores it. -/
def segAbort (s : State) : State := if s.tx.state = .idle then s else endSend .aborted s

/-- R104: ContinueToSend opens a block; the first frame leaves on the next `TICK`. -/
def segContinue (bs st : Byte) (s : State) : State :=
  { s with tx := { s.tx with bs := bs.toNat, bsRem := bs.toNat, st := stTicks st, gap := 0, state := .sendCf } }

/-- R105: Wait restarts the wait for Flow Control. -/
def segWait (s : State) : State := { s with tx := { s.tx with tmr := s.cfg.nBsTicks } }

/-- R106: Overflow ends the send. -/
def segOverflow (s : State) : State := raiseTx .peerOverflow s

/-- A Flow Control frame the router gives the Segmenter; `bs` and `st` are read with ContinueToSend only (R67, R68). -/
def segFlow (fs : FlowStatus) (bs st : Byte) (s : State) : State :=
  match fs with
  | .cts => segContinue bs st s
  | .wait => segWait s
  | .ovflw => segOverflow s

/-- R108: whether the overall transfer timeout runs out on this `TICK`. -/
def overallExpires (s : State) : Bool := 0 < s.cfg.tXferTicks && countDown s.tx.total == 0

/-- R108: the overall timer counts in every non-idle state, if it is on. -/
def countOverall (s : State) : State :=
  if 0 < s.cfg.tXferTicks then { s with tx := { s.tx with total := countDown s.tx.total } } else s

/-- R107: the wait for Flow Control. -/
def segTickWait (s : State) : State :=
  if countDown s.tx.tmr = 0 then raiseTx .flowControlTimeout s
  else { s with tx := { s.tx with tmr := countDown s.tx.tmr } }

/-- R110 `after_cf(n)`: completion, then the block limit, then more to send. -/
def afterCf (n : Nat) (s : State) : State :=
  let t := { s.tx with off := s.tx.off + n, sn := nextSn s.tx.sn }
  if t.off = t.len then endSend .ok s
  else if t.bs = 0 then { s with tx := { t with gap := t.st } }
  else if countDown t.bsRem = 0 then
    { s with tx := { t with bsRem := countDown t.bsRem, state := .waitFc, tmr := s.cfg.nBsTicks } }
  else { s with tx := { t with bsRem := countDown t.bsRem, gap := t.st } }

/-- R109: a due Consecutive Frame is presented; a refusing link ends the send (R111). -/
def segEmitCf (s : State) : Result :=
  match encCF s.cfg.cap s.tx.sn (bufSlice s.tx s.tx.off (cfBytes s.cfg.cap s.tx)) with
  | none => .refused .formatterPrecondition
  | some d =>
    if s.linkOk then .next (afterCf (cfBytes s.cfg.cap s.tx) (presentFrame d s))
    else .next (raiseTx .linkError (presentFrame d s))

/-- R109: the gap counts down, and a frame leaves when it is 0. -/
def segTickSend (s : State) : Result :=
  let s := { s with tx := { s.tx with gap := countDown s.tx.gap } }
  if s.tx.gap = 0 then segEmitCf s else .next s

/-- `tx_tick` (R143): the overall timer first (R174), then the wait or the emission. -/
def segTick (s : State) : Result :=
  match s.tx.state with
  | .idle => .next s
  | .waitFc =>
    if overallExpires s then .next (raiseTx .flowControlTimeout s) else .next (segTickWait (countOverall s))
  | .sendCf =>
    if overallExpires s then .next (raiseTx .flowControlTimeout s) else segTickSend (countOverall s)

end Sys2Proof.Machine
end

