-- ==== Sys2Proof/Machine/Frames.lean ====
section
/-!
DEFINITION. The meanings of the frame forms: a frame from `RX_ADDR` is given `decode`'s verdict (40_codec.md R80 to R85)
and the router hands the verdict to one half (43_session.md R142).
-/

namespace Sys2Proof.Machine

/-- The second half of `route` (R142): a decoded Flow Control frame goes to the Segmenter exactly while it waits for
one; everything else goes to the Reassembler. -/
def deliver (v : Verdict) (s : State) : State :=
  match v with
  | .sf p => reaSingle p s
  | .ff len chunk => reaFirst len chunk s
  | .cf sn p => reaConsecutive sn p s
  | .fc fs bs st => if s.tx.state = .waitFc then segFlow fs bs st s else reaFlow s
  | .err e => reaUndecodable e s

/-- SF: R81, then R121 or R130. -/
def execSF (dl : Nibble) (tail : List Byte) (s : State) : Result := .next (deliver (decodeSF dl tail) s)

/-- FF: R82, then R122, R123 or R130. -/
def execFF (hi : Nibble) (tail : List Byte) (s : State) : Result := .next (deliver (decodeFF s.cfg.cap hi tail) s)

/-- CF: R83, then R124, R126 or R129. -/
def execCF (sn : Nibble) (tail : List Byte) (s : State) : Result := .next (deliver (decodeCF sn tail) s)

/-- FC.CTS: R84, then R104, R124 or R130. -/
def execFcCts (tail : List Byte) (s : State) : Result := .next (deliver (decodeFC 0#4 tail) s)

/-- FC.WAIT: R84, then R105, R124 or R130. -/
def execFcWait (tail : List Byte) (s : State) : Result := .next (deliver (decodeFC 1#4 tail) s)

/-- FC.OVFLW: R84, then R106, R124 or R130. -/
def execFcOvflw (tail : List Byte) (s : State) : Result := .next (deliver (decodeFC 2#4 tail) s)

/-- FC.RSVD_3: malformed (R84), then R125 or R131. -/
def execFcRsvd3 (tail : List Byte) (s : State) : Result := .next (deliver (decodeFC 3#4 tail) s)

/-- FC.RSVD_4_7: malformed (R84), then R125 or R131. -/
def execFcRsvd47 (low : BitVec 2) (tail : List Byte) (s : State) : Result :=
  .next (deliver (decodeFC (0b01#2 ++ low) tail) s)

/-- FC.RSVD_8_15: malformed (R84), then R125 or R131. -/
def execFcRsvd815 (low : BitVec 3) (tail : List Byte) (s : State) : Result :=
  .next (deliver (decodeFC (0b1#1 ++ low) tail) s)

/-- UNSUP_4_7: unsupported (R85), then R125 or R131. -/
def execUnsup47 (_low : BitVec 6) (_tail : List Byte) (s : State) : Result := .next (deliver decodeUnsupported s)

/-- UNSUP_8_15: unsupported (R85), then R125 or R131. -/
def execUnsup815 (_low : BitVec 7) (_tail : List Byte) (s : State) : Result := .next (deliver decodeUnsupported s)

end Sys2Proof.Machine
end

