-- ==== Sys2Proof/Machine/Dispatch.lean ====
section
/-! DEFINITION. The dispatch: one arm per frame form of the opcode table. -/

namespace Sys2Proof.Machine

def exec (i : Instr) (s : State) : Host.Outcome State Fault Refusal :=
  match i with
  | .sf dl tail => Sys2Proof.Machine.execSF dl tail s
  | .ff hi tail => Sys2Proof.Machine.execFF hi tail s
  | .cf sn tail => Sys2Proof.Machine.execCF sn tail s
  | .fcCts tail => Sys2Proof.Machine.execFcCts tail s
  | .fcWait tail => Sys2Proof.Machine.execFcWait tail s
  | .fcOvflw tail => Sys2Proof.Machine.execFcOvflw tail s
  | .fcRsvd3 tail => Sys2Proof.Machine.execFcRsvd3 tail s
  | .fcRsvd47 low tail => Sys2Proof.Machine.execFcRsvd47 low tail s
  | .fcRsvd815 low tail => Sys2Proof.Machine.execFcRsvd815 low tail s
  | .unsup47 low tail => Sys2Proof.Machine.execUnsup47 low tail s
  | .unsup815 low tail => Sys2Proof.Machine.execUnsup815 low tail s

end Sys2Proof.Machine
end

