-- ==== Sys2Proof/Machine/Session.lean ====
section
/-!
DEFINITION. The session (43_session.md): the events, the address filter, and the dispatch of R148.
-/

namespace Sys2Proof.Machine

/-- `LINK_RX(a, d)` (R142): a frame for another session changes nothing; a frame from `RX_ADDR` is the instruction its
bytes are; the empty frame has no byte 0 and is malformed (R80). -/
def receiveFrame (a : Addr) (d : List Byte) (s : State) : Result :=
  if a = s.cfg.rxAddr then
    match decodeFrame s.cfg.cap d with
    | .ok i => exec i s
    | .error .emptyFrame => .next (deliver (.err .malformedFrame) s)
    | .error .frameTooLong => .refused .frameTooLong
  else .next s

/-- `TICK` (R143): the transmit half first, then the receive half. -/
def tick (s : State) : Result :=
  match segTick s with
  | .next s' => .next (reaTick s')
  | .fault r => .fault r
  | .refused r => .refused r

/-- The dispatch of R148, on what the ports' types admit (U19, log entry 14). -/
def handle (e : Event) (s : State) : Result :=
  match e with
  | .reset => .next (resetHalves s)
  | .send p => if PayloadFits p then segSend p s else .refused .payloadTooLong
  | .abortTx => .next (segAbort s)
  | .abortRx => .next (reaAbort s)
  | .tick => tick s
  | .linkRx a d => if FrameFits s.cfg.cap d then receiveFrame a d s else .refused .frameTooLong

/-- One step: the next event is taken and handled. With none offered the engine waits (log entry 4). A configuration
outside its legal ranges is refused (R25). -/
def serve (s : State) : Result :=
  if s.cfg.Legal then
    match s.input with
    | [] => .next s
    | x :: rest => handle x.event (takeStimulus x rest s)
  else .refused .illegalConfig

/-- `LINK_RX` of a full frame with the bits `w`, numbered as the opcode table numbers them, offered next and accepted
from `RX_ADDR`: where this machine finds its next instruction (log entries 3 and 17). -/
def offerTableFrame (s : State) (nbits w : Nat) : State :=
  { s with input := ⟨.linkRx s.cfg.rxAddr (tableFrame s.cfg.cap nbits w), true⟩ :: s.input }

end Sys2Proof.Machine
end

