-- ==== Sys2Proof/Machine/Step.lean ====
section
/-! DEFINITION. One step of the machine (43_session.md R141), and where it finds an instruction. -/

namespace Sys2Proof.Machine

/-- `step(cfg, S, e, link_ok) = (S', outs)` of R141, with `cfg`, the event and `link_ok` read from the state and the
output actions appended to `out`. -/
def step (s : State) : Host.Outcome State Fault Refusal := serve s

/-- `s` with the frame whose bits are `w` offered as the next event. -/
def State.withFetchWord (s : State) (nbits w : Nat) : State := offerTableFrame s nbits w

end Sys2Proof.Machine
end

