-- ==== Sys2Proof/Safety.lean ====
section
/-!
DEFINITION. What counts as a safe run: the invariants of 10_state.md R30 with the widths of R10, the inputs the ports
admit (43_session.md R151), the actions a step adds, and the frames of a transfer (41_segmenter.md R115).
-/

namespace Sys2Proof.Machine

/-- The transmit half's invariants: R30 items 3 to 7, the widths of R10, R19 and R113. -/
structure TxInv (c : Config) (t : TxHalf) : Prop where
  /-- R30 item 3. -/
  idle : t.state = .idle → t = .reset
  /-- R30 item 4. -/
  length : t.state ≠ .idle → c.cap ≤ t.len ∧ t.len ≤ maxPayload
  /-- R30 item 4, R15. -/
  offset : t.state ≠ .idle → c.cap - 2 ≤ t.off ∧ t.off < t.len
  /-- R30 item 4. -/
  buffer : t.state ≠ .idle → t.buf.length = t.len
  /-- R30 item 4: `k` Consecutive Frames have been sent. -/
  sequence : t.state ≠ .idle → ∃ k, t.off = (c.cap - 2) + k * (c.cap - 1) ∧ t.sn = BitVec.ofNat 4 (1 + k)
  /-- R30 item 5. -/
  waitTimer : t.state = .waitFc → 1 ≤ t.tmr
  /-- R113: without the handshake `TX_WAIT_FC` is never entered. -/
  handshake : t.state = .waitFc → c.fcEn = true
  /-- R113: without the handshake a send runs with block size 0 and separation 0. -/
  unpaced : c.fcEn = false → t.bs = 0 ∧ t.st = 0
  /-- R30 item 6. -/
  block : t.state = .sendCf → t.bs ≠ 0 → 1 ≤ t.bsRem
  /-- R30 item 7. -/
  overall : 0 < c.tXferTicks → t.state ≠ .idle → 1 ≤ t.total
  /-- R30 items 5 and 7, R10: the timers' ranges. -/
  timerWidth : t.tmr ≤ c.nBsTicks ∧ t.total ≤ c.tXferTicks
  /-- R30 item 6, R10: the block counters' ranges. -/
  blockWidth : t.bs ≤ 255 ∧ t.bsRem ≤ t.bs
  /-- R10, R18: the separation registers' ranges. -/
  separationWidth : t.st ≤ 1270 ∧ t.gap ≤ t.st

/-- The receive half's invariants: R30 items 1 and 2 and the widths of R10. -/
structure RxInv (c : Config) (r : RxHalf) : Prop where
  /-- R30 item 1. -/
  idle : r.state = .idle → r = .reset
  /-- R30 item 2. -/
  length : r.state = .awaitCf → c.cap - 2 < r.len ∧ r.len ≤ c.rxBufCap
  /-- R30 item 2: "never exceeds the length declared by the First Frame's PCI". -/
  fill : r.state = .awaitCf → r.buf.length < r.len
  /-- R30 item 2. -/
  timer : r.state = .awaitCf → 1 ≤ r.tmr ∧ r.tmr ≤ c.nCrTicks
  /-- R22: a Flow Control frame is still owed. -/
  block : r.state = .awaitCf → 0 < c.rxBs.toNat → 1 ≤ r.bsRem
  /-- R10, R22: the block counter's range. -/
  blockWidth : r.bsRem ≤ c.rxBs.toNat

/-- The invariants of the machine. -/
structure Inv (s : State) : Prop where
  legal : s.cfg.Legal
  tx : TxInv s.cfg s.tx
  rx : RxInv s.cfg s.rx

/-- An event the ports admit: a payload of at most 4095 bytes, a frame of at most `CAP` bytes (R28, R203). -/
abbrev Event.Admitted (cap : Nat) : Event → Prop
  | .send p => PayloadFits p
  | .linkRx _ d => FrameFits cap d
  | .reset | .abortTx | .abortRx | .tick => True

/-- The state an answer carries, if it is a next state. -/
def nextState : Result → Option State
  | .next s => some s
  | .fault _ => none
  | .refused _ => none

/-- The actions emitted between a state and a later one. -/
def emitted (s t : State) : List Action := t.out.drop s.out.length

/-- A `TICK` with an accepting link. -/
def tickOk : Stimulus := ⟨.tick, true⟩

/-- A frame arriving from `RX_ADDR`, with an accepting link. -/
def arrives (c : Config) (d : List Byte) : Stimulus := ⟨.linkRx c.rxAddr d, true⟩

/-- Whether an action is a frame handed to the link. -/
def Action.isFrame : Action → Bool
  | .linkTx _ _ => true
  | .txDone _ | .sendRefused | .rxPayload _ | .rxError _ | .rxAborted => false

/-- Whether an action answers a send. -/
def Action.isTxDone : Action → Bool
  | .txDone _ => true
  | .linkTx _ _ | .sendRefused | .rxPayload _ | .rxError _ | .rxAborted => false

/-- Whether an action belongs to the host's transmit side. -/
def Action.isTxReport : Action → Bool
  | .txDone _ | .sendRefused => true
  | .linkTx _ _ | .rxPayload _ | .rxError _ | .rxAborted => false

/-- Whether an action belongs to the host's receive side. -/
def Action.isRxReport : Action → Bool
  | .rxPayload _ | .rxError _ | .rxAborted => true
  | .linkTx _ _ | .txDone _ | .sendRefused => false

/-- The frame an action hands to the link. -/
def Action.frame? : Action → Option (List Byte)
  | .linkTx _ d => some d
  | .txDone _ | .sendRefused | .rxPayload _ | .rxError _ | .rxAborted => none

/-- Whether an event is a `SEND`. -/
def Event.isSend : Event → Bool
  | .send _ => true
  | .reset | .abortTx | .abortRx | .linkRx _ _ | .tick => false

/-- `k` steps of the machine. -/
def runFor (k : Nat) (s : State) : Result := Sys2Proof.core.run k s

/-- The `k`-th Consecutive Frame of payload `p`, `k` from 1 (R115): number `k mod 16` and the slice at
`(CAP-2) + (k-1)*(CAP-1)`. -/
def cfOf (cap : Nat) (p : List Byte) (k : Nat) : List Byte :=
  (0x20#8 ||| BitVec.ofNat 8 (k % 16)) :: (p.drop ((cap - 2) + (k - 1) * (cap - 1))).take (cap - 1)

/-- The frames of one completed send of `p`, in order (R115). -/
def transferFrames (cap : Nat) (p : List Byte) : List (List Byte) :=
  if p.length ≤ cap - 1 then [BitVec.ofNat 8 p.length :: p]
  else ((0x10#8 ||| BitVec.ofNat 8 (p.length / 256)) :: BitVec.ofNat 8 p.length :: p.take (cap - 2)) ::
    (List.range (cfCount cap p.length)).map fun j => cfOf cap p (j + 1)

/-- The events that make one send of `p` complete against a peer that answers once with `FC(CTS, 0, st)` (R208): the
`SEND`, the Flow Control frame, and a `TICK` for the first Consecutive Frame and `max(st_ticks(st), 1)` for each other. -/
def sendScript (c : Config) (p : List Byte) (st : Byte) : List Stimulus :=
  ⟨.send p, true⟩ ::
    if p.length ≤ c.cap - 1 then []
    else arrives c [0x30#8, 0#8, st] ::
      List.replicate (1 + (cfCount c.cap p.length - 1) * max (stTicks st) 1) tickOk

/-- How many Flow Control frames a reception of `p` is answered with (R122, R128): one for the First Frame and one after
every `RX_BS`-th Consecutive Frame but the completing one. -/
def flowAnswers (c : Config) (p : List Byte) : Nat :=
  if p.length ≤ c.cap - 1 ∨ c.fcEn = false then 0
  else if c.rxBs.toNat = 0 then 1
  else 1 + (cfCount c.cap p.length - 1) / c.rxBs.toNat

end Sys2Proof.Machine
end

