-- ==== Sys2Proof/Certificates/Slice0/Obligations.lean ====
section
/-!
DEFINITION. The statements for the provers. Each docstring names the rule of spec/ it formalises.
-/

open Sys2Proof Sys2Proof.Machine

/-! ## The codec -/

/-- R61 to R65, R74: words written out from the layouts of 30_encoding.md decode to the forms they stand for.
The numbers of the Flow Control rows are PRESUMED (log entry 11).That a rejected row is an instruction is the model's
choice (log entry 7). -/
def Obligations.WrittenOutFramesDecodeToTheirForms : Prop :=
  decodeFrame 8 [0x02#8, 0x11#8, 0x22#8] = .ok (.sf 2#4 [0x11#8, 0x22#8]) ∧
  decodeFrame 8 [0x1A#8, 0xBC#8, 0x00#8] = .ok (.ff 0xA#4 [0xBC#8, 0x00#8]) ∧
  decodeFrame 8 [0x2F#8, 0x09#8] = .ok (.cf 15#4 [0x09#8]) ∧
  decodeFrame 8 [0x30#8, 0x08#8, 0xF5#8] = .ok (.fcCts [0x08#8, 0xF5#8]) ∧
  decodeFrame 8 [0x31#8, 0x00#8, 0x00#8] = .ok (.fcWait [0x00#8, 0x00#8]) ∧
  decodeFrame 8 [0x32#8, 0x00#8, 0x00#8] = .ok (.fcOvflw [0x00#8, 0x00#8]) ∧
  decodeFrame 8 [0x33#8] = .ok (.fcRsvd3 []) ∧
  decodeFrame 8 [0x36#8] = .ok (.fcRsvd47 2#2 []) ∧
  decodeFrame 8 [0x3D#8] = .ok (.fcRsvd815 5#3 []) ∧
  decodeFrame 8 [0x45#8, 0x00#8] = .ok (.unsup47 5#6 [0x00#8]) ∧
  decodeFrame 8 [0xFF#8] = .ok (.unsup815 127#7 [])

/-- 30_encoding.md section 6 (R74): every value of `data[0]` matches exactly one row of the opcode table, and the decoder
picks that row.
The rows 0x30 to 0x32 are PRESUMED (log entry 11).That a rejected row is an instruction is the model's
choice (log entry 7). -/
def Obligations.EveryFirstByteHasOneRowAndTheDecoderPicksIt : Prop :=
  ∀ (b : Byte) (tail : List Byte),
    rowOf (decodeForm b tail) ∈ opcodeTable ∧ ∀ r ∈ opcodeTable, r.matches b = true ↔ r = rowOf (decodeForm b tail)

/-- 30_encoding.md section 6: decoding the bytes of any instruction that fits a frame gives it back, every operand at every
value. An instruction being a row with its whole tail, the rejected rows among them, is the model's choice (log entry 7). -/
def Obligations.DecodingAnEncodedInstructionGivesItBack : Prop :=
  ∀ (cap : Nat) (i : Instr), i.WellFormed cap → decodeFrame cap (encode i) = .ok i

/-- 30_encoding.md section 6: whatever the decoder of instructions accepts is the encoding of the instruction it answers. This
is about `decodeFrame`, which keeps the whole tail and takes rejected rows as instructions, the model's choice (log entry
7). Of `decode` R91 says it only for frames without ignored trailing bytes: `decode` is not injective on padded frames. -/
def Obligations.EncodingADecodedFrameGivesItBack : Prop :=
  ∀ (cap : Nat) (d : List Byte) (i : Instr), decodeFrame cap d = .ok i → encode i = d ∧ i.WellFormed cap

/-- R80 to R85: `decode` in terms of the numbers in the bytes.
Rests on the spec's own decisions D10, D11, D12 (log entry 12). The status numbers are PRESUMED (log entry 11). -/
def Obligations.DecodeVerdictsFollowTheFrameTables : Prop :=
  ∀ (cap : Nat), codecDecode cap [] = .err .malformedFrame ∧
  ∀ (b : Byte) (tail : List Byte),
    (b.toNat / 16 = 0 → tail.length < b.toNat % 16 → codecDecode cap (b :: tail) = .err .malformedFrame) ∧
    (b.toNat / 16 = 0 → b.toNat % 16 ≤ tail.length → codecDecode cap (b :: tail) = .sf (tail.take (b.toNat % 16))) ∧
    (b.toNat / 16 = 1 → tail = [] → codecDecode cap (b :: tail) = .err .malformedFrame) ∧
    (b.toNat / 16 = 1 → ∀ b1 chunk, tail = b1 :: chunk → b.toNat % 16 * 256 + b1.toNat ≤ cap - 2 →
      codecDecode cap (b :: tail) = .err .malformedFrame) ∧
    (b.toNat / 16 = 1 → ∀ b1 chunk, tail = b1 :: chunk → cap - 2 < b.toNat % 16 * 256 + b1.toNat →
      codecDecode cap (b :: tail) = .ff (b.toNat % 16 * 256 + b1.toNat) chunk) ∧
    (b.toNat / 16 = 2 → codecDecode cap (b :: tail) = .cf (BitVec.ofNat 4 (b.toNat % 16)) tail) ∧
    (b.toNat / 16 = 3 → tail.length < 2 → codecDecode cap (b :: tail) = .err .malformedFrame) ∧
    (b.toNat / 16 = 3 → 2 < b.toNat % 16 → codecDecode cap (b :: tail) = .err .malformedFrame) ∧
    (b.toNat / 16 = 3 → ∀ bs st pad, tail = bs :: st :: pad →
      (b.toNat % 16 = 0 → codecDecode cap (b :: tail) = .fc .cts bs st) ∧
      (b.toNat % 16 = 1 → codecDecode cap (b :: tail) = .fc .wait bs st) ∧
      (b.toNat % 16 = 2 → codecDecode cap (b :: tail) = .fc .ovflw bs st)) ∧
    (4 ≤ b.toNat / 16 → codecDecode cap (b :: tail) = .err .unsupportedFrameType)

/-- R86 to R89: the formatters' bytes as numbers inside their preconditions, and no value outside them.
The status numbers of enc_FC are PRESUMED (log entry 11). -/
def Obligations.FormattersWriteTheFrameTables : Prop :=
  (∀ (cap : Nat) (p : List Byte), cap ≤ 16 →
    (p.length ≤ cap - 1 → ∃ b, encSF cap p = some (b :: p) ∧ b.toNat = p.length) ∧
    (cap - 1 < p.length → encSF cap p = none)) ∧
  (∀ (cap len : Nat) (c : List Byte),
    (cap - 2 < len → len ≤ 4095 → c.length = cap - 2 →
      ∃ b0 b1, encFF cap len c = some (b0 :: b1 :: c) ∧ b0.toNat = 16 + len / 256 ∧ b1.toNat = len % 256) ∧
    (len ≤ cap - 2 ∨ 4095 < len ∨ c.length ≠ cap - 2 → encFF cap len c = none)) ∧
  (∀ (cap : Nat) (sn : Nibble) (p : List Byte),
    (1 ≤ p.length → p.length ≤ cap - 1 → ∃ b, encCF cap sn p = some (b :: p) ∧ b.toNat = 32 + sn.toNat) ∧
    (p.length = 0 ∨ cap - 1 < p.length → encCF cap sn p = none)) ∧
  (∀ (bs st : Byte), encFC .cts bs st = [0x30#8, bs, st] ∧ encFC .wait bs st = [0x31#8, bs, st] ∧
    encFC .ovflw bs st = [0x32#8, bs, st])

/-- 40_codec.md section 4 (R91): the four round trips through the codec, for a legal `CAP`.
The round trip is the spec's own inference (R91, log entry 12). -/
def Obligations.DecodeInvertsTheFormatters : Prop :=
  ∀ (cap : Nat), 3 ≤ cap → cap ≤ 16 →
    (∀ p d, encSF cap p = some d → codecDecode cap d = .sf p) ∧
    (∀ len c d, encFF cap len c = some d → codecDecode cap d = .ff len c) ∧
    (∀ sn p d, encCF cap sn p = some d → codecDecode cap d = .cf sn p) ∧
    (∀ fs bs st, codecDecode cap (encFC fs bs st) = .fc fs bs st)

/-- R90: `st_ticks`, with its range of 11 bits.
Rests on the spec's own decision D9 (log entry 12). -/
def Obligations.SeparationBytesConvertToTicks : Prop :=
  ∀ (b : Byte),
    (b.toNat ≤ 0x7F → stTicks b = b.toNat * 10) ∧
    (0xF1 ≤ b.toNat → b.toNat ≤ 0xF9 → stTicks b = b.toNat - 0xF0) ∧
    (0x80 ≤ b.toNat → b.toNat ≤ 0xF0 → stTicks b = 1270) ∧
    (0xFA ≤ b.toNat → stTicks b = 1270)

/-- R42: the capped append keeps the first `min(len(p), rx_len - len(rx_buf))` bytes of `p` in order, changes no other
register, leaves every byte already held in place, and never exceeds the declared length. -/
def Obligations.CappedAppendKeepsWithinTheDeclaredLength : Prop :=
  ∀ (r : RxHalf) (p : List Byte),
    bufAppendCapped r p = { r with buf := r.buf ++ p.take (min p.length (r.len - r.buf.length)) } ∧
    (∀ i, i < r.buf.length → (bufAppendCapped r p).buf[i]? = r.buf[i]?) ∧
    (r.buf.length ≤ r.len → (bufAppendCapped r p).buf.length ≤ r.len)

/-! ## Fetching and routing -/

/-- 43_session.md R142, R148: when the bytes of the frame offered next from `RX_ADDR` decode to an instruction, the step
is `exec` of it on the state with that one event taken.
Events and their link answers standing in State is the model's choice (log entries 3 and 5). -/
def Obligations.StepRunsTheDecodedInstruction : Prop :=
  ∀ (s : State) (d : List Byte) (ok : Bool) (rest : List Stimulus) (i : Instr),
    s.cfg.Legal → s.input = ⟨.linkRx s.cfg.rxAddr d, ok⟩ :: rest → decodeFrame s.cfg.cap d = .ok i →
    step s = exec i { s with input := rest, linkOk := ok }

/-- The model's own (log entries 3 and 17): the word placed by `withFetchWord` is the next instruction, the one
`decodeTableWord` reads, on a machine with this hardware's `CAP`. -/
def Obligations.PlacedWordIsTheNextInstruction : Prop :=
  ∀ (s : State) (nbits w : Nat) (i : Instr),
    s.cfg.Legal → s.cfg.cap = 8 → decodeTableWord nbits w = some i →
    step (s.withFetchWord nbits w) = exec i { s with linkOk := true }

/-- 43_session.md section 2 (R142): an arriving frame changes nothing unless it comes from `RX_ADDR`; then `decode`'s
verdict is handed to one half. It holds of the empty frame too.
Rests on the spec's own decisions D13, D10 (log entry 12). -/
def Obligations.ArrivingFramesAreRoutedByDecodeVerdict : Prop :=
  ∀ (s : State) (a : Addr) (d : List Byte) (ok : Bool) (rest : List Stimulus),
    s.cfg.Legal → s.input = ⟨.linkRx a d, ok⟩ :: rest → d.length ≤ s.cfg.cap →
    step s = .next (if a = s.cfg.rxAddr then deliver (codecDecode s.cfg.cap d) { s with input := rest, linkOk := ok }
      else { s with input := rest, linkOk := ok })

/-- 43_session.md section 2 with 40_codec.md section 1: every frame form completes, in every state, with what the router does with
`decode`'s verdict on its bytes.
Rests on the spec's own decision D13 (log entry 12). That a rejected row is an instruction is the model's choice (log entry 7). -/
def Obligations.EveryFormCompletesByItsDecodeVerdict : Prop :=
  ∀ (i : Instr) (s : State), exec i s = .next (deliver (codecDecode s.cfg.cap (encode i)) s)

/-- R116: the Segmenter is shown no frame but a well-formed Flow Control frame from `RX_ADDR` in `TX_WAIT_FC`; any other
frame completes its step with the transmit half as it was.
Rests on the spec's own decision D13 (log entry 12). -/
def Obligations.OtherFramesNeverChangeTheTransmitHalf : Prop :=
  ∀ (s : State) (a : Addr) (d : List Byte) (ok : Bool) (rest : List Stimulus),
    s.cfg.Legal → s.input = ⟨.linkRx a d, ok⟩ :: rest → d.length ≤ s.cfg.cap →
    ¬ (a = s.cfg.rxAddr ∧ s.tx.state = .waitFc ∧ ∃ fs bs st, codecDecode s.cfg.cap d = .fc fs bs st) →
    ∃ t, step s = .next t ∧ t.tx = s.tx

/-- 10_state.md R25 and 93_implementation_defined.md U19, U20: what the ports and the configuration exclude is refused by name.
The spec says the model refuses these (U19, U20); where the test stands is the model's choice (log entry 14). -/
def Obligations.ExcludedInputsAreRefusedByName : Prop :=
  (∀ s : State, ¬ s.cfg.Legal → step s = .refused .illegalConfig) ∧
  (∀ (s : State) (p : List Byte) (ok : Bool) (rest : List Stimulus), s.cfg.Legal → s.input = ⟨.send p, ok⟩ :: rest →
    4095 < p.length → step s = .refused .payloadTooLong) ∧
  (∀ (s : State) (a : Addr) (d : List Byte) (ok : Bool) (rest : List Stimulus), s.cfg.Legal →
    s.input = ⟨.linkRx a d, ok⟩ :: rest → s.cfg.cap < d.length → step s = .refused .frameTooLong)

/-! ## Frames at the Reassembler -/

/-- R121: a Single Frame in `RX_IDLE` delivers its payload, the empty one included, and changes no register. -/
def Obligations.SingleFrameDeliversItsPayloadWhenIdle : Prop :=
  ∀ (s : State) (dl : Nibble) (tail : List Byte), dl.toNat ≤ tail.length → s.rx.state = .idle →
    exec (.sf dl tail) s = .next { s with out := s.out ++ [.rxPayload (tail.take dl.toNat)] }

/-- R122: a First Frame that fits starts a reception and is answered with ContinueToSend; a refusing link leaves the half
as it was. Without the handshake the reception starts in silence.
Rests on the spec's own decisions D16, D19, D28 (log entry 12). The status byte of Flow Control is PRESUMED (log entry 11). -/
def Obligations.FirstFrameStartsAReception : Prop :=
  ∀ (s : State) (hi : Nibble) (b1 : Byte) (chunk : List Byte) (len : Nat),
    len = hi.toNat * 256 + b1.toNat → (Instr.ff hi (b1 :: chunk)).WellFormed s.cfg.cap → s.cfg.cap - 2 < len →
    len ≤ s.cfg.rxBufCap → s.rx.state = .idle →
    (s.cfg.fcEn = true → s.linkOk = true →
      exec (.ff hi (b1 :: chunk)) s = .next { s with
        rx := { state := .awaitCf, buf := chunk, len := len, sn := 1#4, tmr := s.cfg.nCrTicks, bsRem := s.cfg.rxBs.toNat }
        out := s.out ++ [.linkTx s.cfg.txAddr [0x30#8, s.cfg.rxBs, s.cfg.rxStmin]] }) ∧
    (s.cfg.fcEn = true → s.linkOk = false →
      exec (.ff hi (b1 :: chunk)) s = .next { s with
        out := s.out ++ [.linkTx s.cfg.txAddr [0x30#8, s.cfg.rxBs, s.cfg.rxStmin], .rxError .linkError] }) ∧
    (s.cfg.fcEn = false →
      exec (.ff hi (b1 :: chunk)) s = .next { s with
        rx := { state := .awaitCf, buf := chunk, len := len, sn := 1#4, tmr := s.cfg.nCrTicks, bsRem := s.cfg.rxBs.toNat } })

/-- R123: a First Frame longer than `RX_BUF_CAP` is answered with Overflow, records nothing and reports no error of its own.
Rests on the spec's own decisions D16, D19, D28, D30 (log entry 12). The status byte of Flow Control is PRESUMED (log entry 11). -/
def Obligations.FirstFrameTooLongIsAnsweredWithOverflow : Prop :=
  ∀ (s : State) (hi : Nibble) (b1 : Byte) (chunk : List Byte),
    s.cfg.cap - 2 < hi.toNat * 256 + b1.toNat → s.cfg.rxBufCap < hi.toNat * 256 + b1.toNat → s.rx.state = .idle →
    (s.cfg.fcEn = true → s.linkOk = true →
      exec (.ff hi (b1 :: chunk)) s =
        .next { s with out := s.out ++ [.linkTx s.cfg.txAddr [0x32#8, s.cfg.rxBs, s.cfg.rxStmin]] }) ∧
    (s.cfg.fcEn = true → s.linkOk = false →
      exec (.ff hi (b1 :: chunk)) s = .next { s with
        out := s.out ++ [.linkTx s.cfg.txAddr [0x32#8, s.cfg.rxBs, s.cfg.rxStmin], .rxError .linkError] }) ∧
    (s.cfg.fcEn = false → exec (.ff hi (b1 :: chunk)) s = .next s)

/-- R124: a Consecutive Frame, or a Flow Control frame the Segmenter does not wait for, is dropped in `RX_IDLE`.
Rests on the spec's own decision D14 (log entry 12). -/
def Obligations.StrayFramesAreDroppedWhenIdle : Prop :=
  ∀ s : State, s.rx.state = .idle →
    (∀ (sn : Nibble) (p : List Byte), exec (.cf sn p) s = .next s) ∧
    (s.tx.state ≠ .waitFc → ∀ (bs st : Byte) (pad : List Byte), exec (.fcCts (bs :: st :: pad)) s = .next s ∧
      exec (.fcWait (bs :: st :: pad)) s = .next s ∧ exec (.fcOvflw (bs :: st :: pad)) s = .next s)

/-- R127 with R126: the expected Consecutive Frame that brings the fill to the declared length hands the whole payload
over and clears the half; bytes beyond the length are cut.
Rests on the spec's own decisions D27, D29 (log entry 12). -/
def Obligations.ExpectedConsecutiveFrameCompletes : Prop :=
  ∀ (s : State) (p : List Byte), s.rx.state = .awaitCf → s.rx.buf.length ≤ s.rx.len →
    s.rx.len ≤ s.rx.buf.length + p.length →
    exec (.cf s.rx.sn p) s = .next { s with
      rx := { state := .idle, buf := [], len := 0, sn := 0#4, tmr := 0, bsRem := 0 }
      out := s.out ++ [.rxPayload (s.rx.buf ++ p.take (s.rx.len - s.rx.buf.length))] }

/-- 42_reassembler.md section 3 (R126, R128): the expected Consecutive Frame that does not complete is appended whole, the
number moves on modulo 16, the timer restarts; at a block boundary Flow Control is sent, and a refusing link aborts.
Rests on the spec's own decisions D12, D16, D19, D28 (log entry 12). The status byte of Flow Control is PRESUMED (log entry 11). -/
def Obligations.ExpectedConsecutiveFrameContinues : Prop :=
  ∀ (s : State) (p : List Byte), s.rx.state = .awaitCf → s.rx.buf.length + p.length < s.rx.len →
    (s.cfg.fcEn = false ∨ s.cfg.rxBs = 0#8 →
      exec (.cf s.rx.sn p) s = .next { s with
        rx := { s.rx with buf := s.rx.buf ++ p, sn := s.rx.sn + 1#4, tmr := s.cfg.nCrTicks } }) ∧
    (s.cfg.fcEn = true → s.cfg.rxBs ≠ 0#8 → 1 < s.rx.bsRem →
      exec (.cf s.rx.sn p) s = .next { s with
        rx := { s.rx with buf := s.rx.buf ++ p, sn := s.rx.sn + 1#4, tmr := s.cfg.nCrTicks, bsRem := s.rx.bsRem - 1 } }) ∧
    (s.cfg.fcEn = true → s.cfg.rxBs ≠ 0#8 → s.rx.bsRem = 1 → s.linkOk = true →
      exec (.cf s.rx.sn p) s = .next { s with
        rx := { s.rx with
          buf := s.rx.buf ++ p, sn := s.rx.sn + 1#4, tmr := s.cfg.nCrTicks, bsRem := s.cfg.rxBs.toNat }
        out := s.out ++ [.linkTx s.cfg.txAddr [0x30#8, s.cfg.rxBs, s.cfg.rxStmin]] }) ∧
    (s.cfg.fcEn = true → s.cfg.rxBs ≠ 0#8 → s.rx.bsRem = 1 → s.linkOk = false →
      exec (.cf s.rx.sn p) s = .next { s with
        rx := { state := .idle, buf := [], len := 0, sn := 0#4, tmr := 0, bsRem := 0 }
        out := s.out ++ [.linkTx s.cfg.txAddr [0x30#8, s.cfg.rxBs, s.cfg.rxStmin], .rxError .linkError] })

/-- R129: a Consecutive Frame with any other number aborts the reception with `SequenceError` and leaves no bytes behind. -/
def Obligations.WrongSequenceNumberAbortsTheReception : Prop :=
  ∀ (s : State) (sn : Nibble) (p : List Byte), s.rx.state = .awaitCf → sn ≠ s.rx.sn →
    exec (.cf sn p) s = .next { s with
      rx := { state := .idle, buf := [], len := 0, sn := 0#4, tmr := 0, bsRem := 0 }
      out := s.out ++ [.rxError .sequenceError] }

/-- R130: a well-formed frame of another type during a reception aborts it with `ProtocolViolation` and is itself dropped.
Rests on the spec's own decisions D13, D15 (log entry 12). -/
def Obligations.OtherFrameTypesAbortTheReception : Prop :=
  ∀ s : State, s.rx.state = .awaitCf →
    let aborted : State := { s with
      rx := { state := .idle, buf := [], len := 0, sn := 0#4, tmr := 0, bsRem := 0 }
      out := s.out ++ [.rxError .protocolViolation] }
    (∀ (dl : Nibble) (tail : List Byte), dl.toNat ≤ tail.length → exec (.sf dl tail) s = .next aborted) ∧
    (∀ (hi : Nibble) (b1 : Byte) (chunk : List Byte), s.cfg.cap - 2 < hi.toNat * 256 + b1.toNat →
      exec (.ff hi (b1 :: chunk)) s = .next aborted) ∧
    (s.tx.state ≠ .waitFc → ∀ (bs st : Byte) (pad : List Byte), exec (.fcCts (bs :: st :: pad)) s = .next aborted ∧
      exec (.fcWait (bs :: st :: pad)) s = .next aborted ∧ exec (.fcOvflw (bs :: st :: pad)) s = .next aborted)

/-- R125, R131: a frame `decode` rejects is reported with the codec's own error in `RX_IDLE`, whatever the Segmenter does;
during a reception it aborts it with `ProtocolViolation` and the codec's own error is not reported.
Rests on the spec's own decisions D14, D15 (log entry 12). -/
def Obligations.RejectedFramesReportOrAbort : Prop :=
  ∀ (i : Instr) (s : State),
    (s.rx.state = .idle → codecDecode s.cfg.cap (encode i) = .err .malformedFrame →
      exec i s = .next { s with out := s.out ++ [.rxError .malformedFrame] }) ∧
    (s.rx.state = .idle → codecDecode s.cfg.cap (encode i) = .err .unsupportedFrameType →
      exec i s = .next { s with out := s.out ++ [.rxError .unsupportedFrameType] }) ∧
    (s.rx.state = .awaitCf → ∀ e, codecDecode s.cfg.cap (encode i) = .err e → exec i s = .next { s with
      rx := { state := .idle, buf := [], len := 0, sn := 0#4, tmr := 0, bsRem := 0 }
      out := s.out ++ [.rxError .protocolViolation] })

/-- 40_codec.md section 1 with 42_reassembler.md sections 2 and 3: the five rejected rows, and the legal rows' frames too short or
with lengths out of range, complete with their error: the codec's in `RX_IDLE`, `ProtocolViolation` during a reception.
Rests on the spec's own decisions D10, D11, D14, D15 (log entry 12). That a rejected row is an instruction is the model's choice (log entry 7). -/
def Obligations.RejectedRowsCompleteWithTheirError : Prop :=
  ∀ (s : State),
    let reported (e : Error) : State :=
      if s.rx.state = .idle then { s with out := s.out ++ [.rxError e] }
      else { s with
        rx := { state := .idle, buf := [], len := 0, sn := 0#4, tmr := 0, bsRem := 0 }
        out := s.out ++ [.rxError .protocolViolation] }
    (∀ tail, exec (.fcRsvd3 tail) s = .next (reported .malformedFrame)) ∧
    (∀ low tail, exec (.fcRsvd47 low tail) s = .next (reported .malformedFrame)) ∧
    (∀ low tail, exec (.fcRsvd815 low tail) s = .next (reported .malformedFrame)) ∧
    (∀ low tail, exec (.unsup47 low tail) s = .next (reported .unsupportedFrameType)) ∧
    (∀ low tail, exec (.unsup815 low tail) s = .next (reported .unsupportedFrameType)) ∧
    (∀ (dl : Nibble) tail, tail.length < dl.toNat → exec (.sf dl tail) s = .next (reported .malformedFrame)) ∧
    (∀ hi, exec (.ff hi []) s = .next (reported .malformedFrame)) ∧
    (∀ (hi : Nibble) (b1 : Byte) chunk, hi.toNat * 256 + b1.toNat ≤ s.cfg.cap - 2 →
      exec (.ff hi (b1 :: chunk)) s = .next (reported .malformedFrame)) ∧
    (∀ tail : List Byte, tail.length < 2 → exec (.fcCts tail) s = .next (reported .malformedFrame) ∧
      exec (.fcWait tail) s = .next (reported .malformedFrame) ∧
      exec (.fcOvflw tail) s = .next (reported .malformedFrame))

/-! ## Flow Control at the Segmenter -/

/-- R104: ContinueToSend in `TX_WAIT_FC` opens a block with the frame's parameters and emits nothing.
Rests on the spec's own decision D7 (log entry 12). -/
def Obligations.ContinueToSendOpensABlock : Prop :=
  ∀ (s : State) (bs st : Byte) (pad : List Byte), s.tx.state = .waitFc →
    exec (.fcCts (bs :: st :: pad)) s = .next { s with tx := { s.tx with
      state := .sendCf, bs := bs.toNat, bsRem := bs.toNat, st := stTicks st, gap := 0 } }

/-- R105: Wait in `TX_WAIT_FC` restarts the wait for Flow Control and does nothing else.
Rests on the spec's own decision D17 (log entry 12). -/
def Obligations.WaitRestartsTheFlowControlTimer : Prop :=
  ∀ (s : State) (bs st : Byte) (pad : List Byte), s.tx.state = .waitFc →
    exec (.fcWait (bs :: st :: pad)) s = .next { s with tx := { s.tx with tmr := s.cfg.nBsTicks } }

/-- R106: Overflow in `TX_WAIT_FC` ends the send with `PeerOverflow` and the transmit half at its reset values. -/
def Obligations.OverflowEndsTheSend : Prop :=
  ∀ (s : State) (bs st : Byte) (pad : List Byte), s.tx.state = .waitFc →
    exec (.fcOvflw (bs :: st :: pad)) s = .next { s with
      tx := { state := .idle, buf := [], len := 0, off := 0, sn := 0#4, bs := 0, bsRem := 0, st := 0, gap := 0, tmr := 0,
              total := 0 }
      out := s.out ++ [.txDone (.err .peerOverflow)] }

/-! ## Frames: what an instruction leaves alone -/

/-- 20_memory.md section 6 (R49 item 4), 43_session.md section 4: SF, FF, CF and every rejected form leave the configuration, the ports,
every transmit register and every byte of `tx_buf` alone, and only add to the transcript. -/
def Obligations.DataAndRejectedFormsKeepTheTransmitSide : Prop :=
  ∀ (i : Instr) (s t : State), (∀ tail, i ≠ .fcCts tail ∧ i ≠ .fcWait tail ∧ i ≠ .fcOvflw tail) → exec i s = .next t →
    t.cfg = s.cfg ∧ t.input = s.input ∧ t.linkOk = s.linkOk ∧ t.tx = s.tx ∧ (∀ j, txByte t j = txByte s j) ∧
      s.out <+: t.out

/-- 41_segmenter.md section 3 (R104, R105), 43_session.md sections 2 and 4 (R142, R146): a Flow Control form taken by the
Segmenter leaves the receive half alone and, unless it is Overflow, which ends the send and empties `tx_buf` (R106, R170),
emits nothing and keeps every byte of `tx_buf`, the payload's length, offset and number and the overall timer; a Flow
Control form the Segmenter does not take leaves the transmit half alone.
Rests on the spec's own decision D13 (log entry 12). -/
def Obligations.FlowControlFormsKeepTheRest : Prop :=
  ∀ (i : Instr) (s t : State) (tail : List Byte), i = .fcCts tail ∨ i = .fcWait tail ∨ i = .fcOvflw tail →
    exec i s = .next t →
    (t.cfg = s.cfg ∧ t.input = s.input ∧ t.linkOk = s.linkOk ∧ s.out <+: t.out) ∧
    (s.tx.state = .waitFc → 2 ≤ tail.length → t.rx = s.rx ∧ (∀ j, rxByte t j = rxByte s j) ∧
      (i ≠ .fcOvflw tail → t.out = s.out ∧ t.tx.len = s.tx.len ∧ t.tx.off = s.tx.off ∧ t.tx.sn = s.tx.sn ∧
        t.tx.total = s.tx.total ∧ ∀ j, txByte t j = txByte s j)) ∧
    (s.tx.state ≠ .waitFc ∨ tail.length < 2 → t.tx = s.tx ∧ ∀ j, txByte t j = txByte s j)

/-- 20_memory.md section 2 (R42): where the bytes of an expected Consecutive Frame go while the reception goes on: they
stand from the old fill on, in order, and every byte of either buffer at any other index is as before. -/
def Obligations.ConsecutiveFrameStoresOnlyItsBytes : Prop :=
  ∀ (s t : State) (p : List Byte), s.rx.state = .awaitCf → exec (.cf s.rx.sn p) s = .next t → t.rx.state = .awaitCf →
    (∀ j, j < s.rx.buf.length ∨ s.rx.buf.length + appendRoom s.rx p ≤ j → rxByte t j = rxByte s j) ∧
    (∀ j, j < appendRoom s.rx p → rxByte t (s.rx.buf.length + j) = p[j]?) ∧
    (∀ j, txByte t j = txByte s j)

/-! ## Host events -/

/-- R101: `SEND` of a payload that fits one frame, in `TX_IDLE`: one Single Frame, one answer, no register written. -/
def Obligations.SendOfAShortPayloadIsOneSingleFrame : Prop :=
  ∀ (s : State) (p : List Byte) (ok : Bool) (rest : List Stimulus),
    s.cfg.Legal → s.input = ⟨.send p, ok⟩ :: rest → s.tx.state = .idle → p.length ≤ s.cfg.cap - 1 →
    step s = .next { s with
      input := rest
      linkOk := ok
      out := s.out ++ [.linkTx s.cfg.txAddr (BitVec.ofNat 8 p.length :: p),
        .txDone (if ok then .ok else .err .linkError)] }

/-- R102: `SEND` of a longer payload in `TX_IDLE`: the First Frame goes out and the send is in flight; when the link refuses it, the
half stays as it was and the send is answered.
Rests on the spec's own decisions D5, D19, D28 (log entry 12). -/
def Obligations.SendOfALongPayloadStartsWithAFirstFrame : Prop :=
  ∀ (s : State) (p : List Byte) (ok : Bool) (rest : List Stimulus),
    s.cfg.Legal → s.input = ⟨.send p, ok⟩ :: rest → s.tx.state = .idle → s.cfg.cap ≤ p.length → p.length ≤ 4095 →
    let ff : Action := .linkTx s.cfg.txAddr
      (BitVec.ofNat 8 (16 + p.length / 256) :: BitVec.ofNat 8 p.length :: p.take (s.cfg.cap - 2))
    let sent : TxHalf := { s.tx with
      buf := p, len := p.length, off := s.cfg.cap - 2, sn := 1#4, total := s.cfg.tXferTicks }
    (ok = false → step s = .next { s with
      input := rest, linkOk := ok, out := s.out ++ [ff, .txDone (.err .linkError)] }) ∧
    (ok = true → s.cfg.fcEn = true → step s = .next { s with
      input := rest, linkOk := ok, out := s.out ++ [ff]
      tx := { sent with state := .waitFc, tmr := s.cfg.nBsTicks } }) ∧
    (ok = true → s.cfg.fcEn = false → step s = .next { s with
      input := rest, linkOk := ok, out := s.out ++ [ff]
      tx := { sent with state := .sendCf, bs := 0, bsRem := 0, st := 0, gap := 0 } })

/-- R103: `SEND` while a send is in flight is refused, changes no register and drops the payload.
Rests on the spec's own decision D20 (log entry 12). -/
def Obligations.SendWhileBusyIsRefused : Prop :=
  ∀ (s : State) (p : List Byte) (ok : Bool) (rest : List Stimulus),
    s.cfg.Legal → s.input = ⟨.send p, ok⟩ :: rest → s.tx.state ≠ .idle → p.length ≤ 4095 →
    step s = .next { s with input := rest, linkOk := ok, out := s.out ++ [.sendRefused] }

/-- R112, R134: `ABORT_TX` clears a send in flight and answers `Aborted`, `ABORT_RX` a reception in progress and answers
`RX_ABORTED`; neither touches the other half, and an idle half ignores its abort.
Rests on the spec's own decision D21 (log entry 12). -/
def Obligations.AbortsEndTheirOwnHalfOnly : Prop :=
  (∀ (s : State) (ok : Bool) (rest : List Stimulus), s.cfg.Legal → s.input = ⟨.abortTx, ok⟩ :: rest →
    (s.tx.state ≠ .idle → step s = .next { s with
      input := rest, linkOk := ok, out := s.out ++ [.txDone .aborted]
      tx := { state := .idle, buf := [], len := 0, off := 0, sn := 0#4, bs := 0, bsRem := 0, st := 0, gap := 0, tmr := 0,
              total := 0 } }) ∧
    (s.tx.state = .idle → step s = .next { s with input := rest, linkOk := ok })) ∧
  (∀ (s : State) (ok : Bool) (rest : List Stimulus), s.cfg.Legal → s.input = ⟨.abortRx, ok⟩ :: rest →
    (s.rx.state = .awaitCf → step s = .next { s with
      input := rest, linkOk := ok, out := s.out ++ [.rxAborted]
      rx := { state := .idle, buf := [], len := 0, sn := 0#4, tmr := 0, bsRem := 0 } }) ∧
    (s.rx.state = .idle → step s = .next { s with input := rest, linkOk := ok }))

/-- R190: `RESET` in any state sets every register to its reset value, changes no configuration and emits nothing.
Rests on the spec's own decision D23 (log entry 12). -/
def Obligations.ResetEventClearsEveryRegisterInSilence : Prop :=
  ∀ (s : State) (ok : Bool) (rest : List Stimulus), s.cfg.Legal → s.input = ⟨.reset, ok⟩ :: rest →
    step s = .next { s with
      input := rest, linkOk := ok
      tx := { state := .idle, buf := [], len := 0, off := 0, sn := 0#4, bs := 0, bsRem := 0, st := 0, gap := 0, tmr := 0,
              total := 0 }
      rx := { state := .idle, buf := [], len := 0, sn := 0#4, tmr := 0, bsRem := 0 } }

/-! ## Time -/

/-- R107: a `TICK` in `TX_WAIT_FC` on which the overall timer does not fire: the wait counts down, and its last tick ends
the send with `FlowControlTimeout`. The receive half then takes the same tick (R143).
Rests on the spec's own decisions D17, D24 (log entry 12). -/
def Obligations.TickCountsDownTheFlowControlWait : Prop :=
  ∀ (s : State) (ok : Bool) (rest : List Stimulus),
    s.cfg.Legal → s.input = ⟨.tick, ok⟩ :: rest → s.tx.state = .waitFc →
    (s.cfg.tXferTicks = 0 ∨ 1 < s.tx.total) →
    (s.tx.tmr = 1 → step s = .next (reaTick { s with
      input := rest, linkOk := ok, out := s.out ++ [.txDone (.err .flowControlTimeout)]
      tx := { state := .idle, buf := [], len := 0, off := 0, sn := 0#4, bs := 0, bsRem := 0, st := 0, gap := 0, tmr := 0,
              total := 0 } })) ∧
    (1 < s.tx.tmr → step s = .next (reaTick { s with
      input := rest, linkOk := ok
      tx := { s.tx with
        tmr := s.tx.tmr - 1, total := if s.cfg.tXferTicks = 0 then s.tx.total else s.tx.total - 1 } }))

/-- R108: with the overall timer on, its last tick ends a send in any non-idle state with `FlowControlTimeout` and no
frame goes out; any other tick counts it down; off, it stays.
Rests on the spec's own decisions D17, D24 (log entry 12). -/
def Obligations.OverallTimerEndsTheSend : Prop :=
  ∀ (s : State) (ok : Bool) (rest : List Stimulus),
    s.cfg.Legal → s.input = ⟨.tick, ok⟩ :: rest → s.tx.state ≠ .idle →
    (0 < s.cfg.tXferTicks → s.tx.total = 1 → step s = .next (reaTick { s with
      input := rest, linkOk := ok, out := s.out ++ [.txDone (.err .flowControlTimeout)]
      tx := { state := .idle, buf := [], len := 0, off := 0, sn := 0#4, bs := 0, bsRem := 0, st := 0, gap := 0, tmr := 0,
              total := 0 } })) ∧
    (0 < s.cfg.tXferTicks → 1 < s.tx.total → ∀ t, step s = .next t → t.tx.state ≠ .idle →
      t.tx.total = s.tx.total - 1) ∧
    (s.cfg.tXferTicks = 0 → ∀ t, step s = .next t → t.tx.state ≠ .idle → t.tx.total = s.tx.total)

/-- R109: a `TICK` in `TX_SEND_CF` on which the overall timer does not fire: inside the gap nothing leaves; when the gap
ends the next slice is presented, and a refusing link ends the send.
Rests on the spec's own decisions D7, D24, D28 (log entry 12). -/
def Obligations.TickEmitsTheDueConsecutiveFrame : Prop :=
  ∀ (s : State) (ok : Bool) (rest : List Stimulus),
    Inv s → s.input = ⟨.tick, ok⟩ :: rest → s.tx.state = .sendCf → (s.cfg.tXferTicks = 0 ∨ 1 < s.tx.total) →
    let total := if s.cfg.tXferTicks = 0 then s.tx.total else s.tx.total - 1
    let n := min (s.cfg.cap - 1) (s.tx.len - s.tx.off)
    let cf : Action := .linkTx s.cfg.txAddr
      (BitVec.ofNat 8 (32 + s.tx.sn.toNat) :: (s.tx.buf.drop s.tx.off).take n)
    (1 < s.tx.gap → step s = .next (reaTick { s with
      input := rest, linkOk := ok, tx := { s.tx with gap := s.tx.gap - 1, total := total } })) ∧
    (s.tx.gap ≤ 1 → ok = false → step s = .next (reaTick { s with
      input := rest, linkOk := ok, out := s.out ++ [cf, .txDone (.err .linkError)]
      tx := { state := .idle, buf := [], len := 0, off := 0, sn := 0#4, bs := 0, bsRem := 0, st := 0, gap := 0, tmr := 0,
              total := 0 } })) ∧
    (s.tx.gap ≤ 1 → ok = true → ∃ t, step s = .next t ∧ s.out ++ [cf] <+: t.out)

/-- R110: after a Consecutive Frame the link accepted: completion first, then the block limit, then more to send.
Rests on the spec's own decisions D7, D24, D29 (log entry 12). -/
def Obligations.AcceptedConsecutiveFrameMovesTheSendOn : Prop :=
  ∀ (s : State) (rest : List Stimulus),
    Inv s → s.input = ⟨.tick, true⟩ :: rest → s.tx.state = .sendCf → (s.cfg.tXferTicks = 0 ∨ 1 < s.tx.total) →
    s.tx.gap ≤ 1 →
    let n := min (s.cfg.cap - 1) (s.tx.len - s.tx.off)
    let sent : State := { s with
      input := rest, linkOk := true
      out := s.out ++ [.linkTx s.cfg.txAddr (BitVec.ofNat 8 (32 + s.tx.sn.toNat) :: (s.tx.buf.drop s.tx.off).take n)]
      tx := { s.tx with
        off := s.tx.off + n, sn := s.tx.sn + 1#4
        total := if s.cfg.tXferTicks = 0 then s.tx.total else s.tx.total - 1 } }
    (s.tx.off + n = s.tx.len → step s = .next (reaTick { sent with
      out := sent.out ++ [.txDone .ok]
      tx := { state := .idle, buf := [], len := 0, off := 0, sn := 0#4, bs := 0, bsRem := 0, st := 0, gap := 0, tmr := 0,
              total := 0 } })) ∧
    (s.tx.off + n ≠ s.tx.len → s.tx.bs = 0 → step s = .next (reaTick { sent with
      tx := { sent.tx with gap := s.tx.st } })) ∧
    (s.tx.off + n ≠ s.tx.len → s.tx.bs ≠ 0 → s.tx.bsRem = 1 → step s = .next (reaTick { sent with
      tx := { sent.tx with state := .waitFc, tmr := s.cfg.nBsTicks, bsRem := 0, gap := 0 } })) ∧
    (s.tx.off + n ≠ s.tx.len → s.tx.bs ≠ 0 → 1 < s.tx.bsRem → step s = .next (reaTick { sent with
      tx := { sent.tx with bsRem := s.tx.bsRem - 1, gap := s.tx.st } }))

/-- R132: a `TICK` in `RX_AWAIT_CF`, after the transmit half has taken it (R143): the wait counts down, and its last tick
ends the reception with `ReassemblyTimeout`; what the transmit half emitted stands before it.
Rests on the spec's own decision D24 (log entry 12). -/
def Obligations.TickCountsDownTheConsecutiveFrameWait : Prop :=
  ∀ (s u : State) (ok : Bool) (rest : List Stimulus),
    s.cfg.Legal → s.input = ⟨.tick, ok⟩ :: rest → s.rx.state = .awaitCf →
    segTick { s with input := rest, linkOk := ok } = .next u →
    (s.rx.tmr = 1 → step s = .next { u with
      rx := { state := .idle, buf := [], len := 0, sn := 0#4, tmr := 0, bsRem := 0 }
      out := u.out ++ [.rxError .reassemblyTimeout] }) ∧
    (1 < s.rx.tmr → step s = .next { u with rx := { s.rx with tmr := s.rx.tmr - 1 } })

/-! ## Reset and status -/

/-- R32: every register's value right after reset. Nothing has been offered or emitted, and the latched link answer is
`true`: the model's own fields, whose values are the model's choice (log entries 3, 5, 6). The configuration is this hardware's (R5; its OPEN fields are log entry 2 and not stated).
Rests on the spec's own decision D23 (log entry 12). -/
def Obligations.ResetStateHoldsTheResetValues : Prop :=
  State.reset.tx = { state := .idle, buf := [], len := 0, off := 0, sn := 0#4, bs := 0, bsRem := 0, st := 0, gap := 0,
                     tmr := 0, total := 0 } ∧
  State.reset.rx = { state := .idle, buf := [], len := 0, sn := 0#4, tmr := 0, bsRem := 0 } ∧
  State.reset.cfg.cap = 8 ∧ State.reset.cfg.fcEn = true ∧ State.reset.cfg.rxBs = 0#8 ∧ State.reset.cfg.rxStmin = 0#8 ∧
  State.reset.cfg.rxBufCap = 4095 ∧ State.reset.cfg.Legal ∧
  State.reset.input = [] ∧ State.reset.out = [] ∧ State.reset.linkOk = true

/-- R27, R11, R12 and 60_exceptions.md section 1: the two busy signals, the state encodings, the error codes.
Rests on the spec's own decisions D22, D25, D31 (log entry 12). -/
def Obligations.StatusSignalsAndCodes : Prop :=
  (∀ s : State, (txBusy s = true ↔ s.tx.state ≠ .idle) ∧ (rxBusy s = true ↔ s.rx.state ≠ .idle)) ∧
  (txStateCode .idle = 0 ∧ txStateCode .waitFc = 1 ∧ txStateCode .sendCf = 2) ∧
  (rxStateCode .idle = 0 ∧ rxStateCode .awaitCf = 1) ∧
  (txResultCode .ok = some 0 ∧ errorCode .malformedFrame = 1 ∧ errorCode .unsupportedFrameType = 2 ∧
    errorCode .sequenceError = 3 ∧ errorCode .flowControlTimeout = 4 ∧ errorCode .reassemblyTimeout = 5 ∧
    errorCode .peerOverflow = 6 ∧ errorCode .protocolViolation = 7 ∧ errorCode .linkError = 8)

/-- 43_session.md section 6 (R150): under the invariants a quiescent state's registers are the reset values and `TICK`
has no effect on it.
The spec marks R150 as its own inference from its other rules (log entry 12). -/
def Obligations.QuiescentStateIsTheResetStateAndTickKeepsIt : Prop :=
  ∀ s : State, Inv s → quiescent s = true →
    s.tx = State.reset.tx ∧ s.rx = State.reset.rx ∧
    ∀ ok rest, s.input = ⟨.tick, ok⟩ :: rest → step s = .next { s with input := rest, linkOk := ok }

/-! ## The whole machine -/

/-- 10_state.md section 10 (R30): the invariants hold at power-up in every legal configuration, the reset state's among them.
The spec marks R30 as its own inference from its other rules (log entry 12). -/
def Obligations.InvariantsHoldAtReset : Prop :=
  (∀ c : Config, c.Legal → Inv (State.powerUp c)) ∧ Inv State.reset

/-- 10_state.md section 10 (R30): every step keeps the invariants, whatever is offered.
The spec marks R30 as its own inference from its other rules (log entry 12). -/
def Obligations.EveryStepKeepsTheInvariants : Prop :=
  ∀ s t : State, Inv s → step s = .next t → Inv t

/-- 43_session.md section 1 (R141), section 6 (R150): from any state that meets the invariants, under any events the ports admit, the
machine runs on for any number of steps: no step stops, the invariants hold, and the events taken are the first `k`, or all
where fewer are offered. Beyond the events offered the run goes on by the stutter of log entry 4, the model's choice.
The spec marks R150 as its own inference from its other rules (log entry 12). -/
def Obligations.AdmittedEventsNeverStopTheMachine : Prop :=
  ∀ (k : Nat) (s : State), Inv s → (∀ x ∈ s.input, x.event.Admitted s.cfg.cap) →
    ∃ t, runFor k s = .next t ∧ Inv t ∧ t.cfg = s.cfg ∧ t.input = s.input.drop k

/-- 20_memory.md section 6 (R49 item 1), 10_state.md section 6: a step takes exactly the next event, keeps the configuration, and
only adds to the transcript. With no event offered it changes nothing (the model's own, log entry 4). -/
def Obligations.StepTakesOneEventAndKeepsTheConfiguration : Prop :=
  ∀ s t : State, step s = .next t →
    t.cfg = s.cfg ∧ t.input = s.input.tail ∧ s.out <+: t.out ∧ (s.input = [] → t = s)

/-- 10_state.md section 8 (R29): the actions a step adds are those the ports allow: every frame carries `TX_ADDR` and 1 to
`CAP` bytes, there is at most one frame, `TX_DONE` and `RX_ERROR` carry only the errors of their side, and a payload
delivered has at most 4095 bytes.
The spec marks R114, R135 as its own inference from its other rules (log entry 12). -/
def Obligations.OutputsAreThoseThePortsAllow : Prop :=
  ∀ s t : State, Inv s → step s = .next t →
    (∀ a d, .linkTx a d ∈ emitted s t → a = s.cfg.txAddr ∧ 1 ≤ d.length ∧ d.length ≤ s.cfg.cap) ∧
    (emitted s t).countP Action.isFrame ≤ 1 ∧
    (∀ e, .txDone (.err e) ∈ emitted s t → e ∈ [Error.flowControlTimeout, .peerOverflow, .linkError]) ∧
    (∀ e, .rxError e ∈ emitted s t → e ∈ [Error.malformedFrame, .unsupportedFrameType, .sequenceError,
      .reassemblyTimeout, .protocolViolation, .linkError]) ∧
    (∀ p, .rxPayload p ∈ emitted s t → p.length ≤ 4095)

/-- 41_segmenter.md section 6 (R114 c), 43_session.md section 6 (R150): unless it takes a `RESET`, a step keeps the account: the answers it
gives and the send it leaves in flight are the send it found in flight and the one it accepted. So every accepted `SEND`
is answered exactly once.
The spec marks R114 as its own inference from its other rules (log entry 12). -/
def Obligations.EveryAcceptedSendIsAnsweredOnce : Prop :=
  ∀ (s t : State) (x : Stimulus) (rest : List Stimulus), s.input = x :: rest → x.event ≠ .reset → step s = .next t →
    (emitted s t).countP Action.isTxDone + (txBusy t).toNat =
      (txBusy s).toNat + (x.event.isSend && !txBusy s).toNat

/-- 43_session.md section 6 (R150): unless it takes a `RESET`, a step that finds a reception in progress either leaves it in progress
and reports nothing, or ends it and reports exactly once; a step that finds none reports at most once.
The spec marks R150 as its own inference from its other rules (log entry 12). -/
def Obligations.EveryReceptionIsReportedOnce : Prop :=
  ∀ (s t : State) (x : Stimulus) (rest : List Stimulus), s.input = x :: rest → x.event ≠ .reset → step s = .next t →
    (rxBusy s = true → (emitted s t).countP Action.isRxReport + (rxBusy t).toNat = 1) ∧
    (rxBusy s = false → (emitted s t).countP Action.isRxReport + (rxBusy t).toNat ≤ 1)

/-- 43_session.md section 4 (R146): what the transmit half does and reports does not depend on the receive half, nor do the
bytes of the frames it emits, which are all the frames of a step but one that takes a `LINK_RX`. Of the transmit half the
receive half sees only `tx_state`, through the router; the frames of a step that takes a `LINK_RX` are all its own, and
their bytes do not depend on the transmit half otherwise. -/
def Obligations.HalvesAreIndependent : Prop :=
  (∀ (s t u : State) (r : RxHalf), step s = .next t → step { s with rx := r } = .next u →
    t.tx = u.tx ∧ (emitted s t).filter Action.isTxReport = (emitted s u).filter Action.isTxReport ∧
    ((∀ a d ok rest, s.input ≠ ⟨.linkRx a d, ok⟩ :: rest) →
      (emitted s t).filter Action.isFrame = (emitted s u).filter Action.isFrame)) ∧
  (∀ (s t u : State) (h : TxHalf), h.state = s.tx.state → step s = .next t → step { s with tx := h } = .next u →
    t.rx = u.rx ∧ (emitted s t).filter Action.isRxReport = (emitted s u).filter Action.isRxReport ∧
    (∀ a d ok rest, s.input = ⟨.linkRx a d, ok⟩ :: rest →
      (emitted s t).filter Action.isFrame = (emitted s u).filter Action.isFrame))

/-- 20_memory.md section 7 (R50): while the Segmenter waits for Flow Control, whatever a step emits on the link is a Flow
Control frame of the Reassembler, a ContinueToSend or an Overflow with the bytes of 42_reassembler.md sections 2 and 3
(R122, R123, R128), and `TX_SEND_CF` is entered only by a ContinueToSend from `RX_ADDR` (R104, R142).
Rests on the spec's own decisions D13, D16, D30 (log entry 12). The status byte of Flow Control is PRESUMED (log entry 11). -/
def Obligations.NoConsecutiveFrameLeavesWhileWaiting : Prop :=
  ∀ s t : State, s.tx.state = .waitFc → step s = .next t →
    (∀ a d, .linkTx a d ∈ emitted s t → d = [0x30#8, s.cfg.rxBs, s.cfg.rxStmin] ∨ d = [0x32#8, s.cfg.rxBs, s.cfg.rxStmin]) ∧
    (t.tx.state = .sendCf → ∃ d ok rest bs st, s.input = ⟨.linkRx s.cfg.rxAddr d, ok⟩ :: rest ∧
      codecDecode s.cfg.cap d = .fc .cts bs st)

/-- 41_segmenter.md R113, 42_reassembler.md R136: with the handshake off the engine emits no Flow Control frame and never
waits for one.
Rests on the spec's own decision D19 (log entry 12). -/
def Obligations.WithoutTheHandshakeNoFlowControlIsUsed : Prop :=
  ∀ s t : State, Inv s → s.cfg.fcEn = false → step s = .next t →
    t.tx.state ≠ .waitFc ∧ ∀ a d, .linkTx a d ∈ emitted s t → d.head?.map hiNibble ≠ some 3#4

/-! ## Runs -/

/-- 70_reset_and_hazards.md section 4 (R208) with R107: a send that gets no Flow Control waits in silence and ends on the tick its timer
holds, in `FlowControlTimeout`.
The spec marks R208 as its own inference from its other rules (log entry 12). -/
def Obligations.UnansweredSendTimesOutOnTheLastTick : Prop :=
  ∀ (s : State) (rest : List Stimulus),
    Inv s → s.tx.state = .waitFc → s.rx.state = .idle → s.cfg.tXferTicks = 0 →
    s.input = List.replicate s.tx.tmr tickOk ++ rest →
    (∀ k, k < s.tx.tmr → ∃ t, runFor k s = .next t ∧ t.out = s.out ∧ t.tx.state = .waitFc) ∧
    runFor s.tx.tmr s = .next { s with
      input := rest, linkOk := true, tx := State.reset.tx, out := s.out ++ [.txDone (.err .flowControlTimeout)] }

/-- 70_reset_and_hazards.md section 4 (R208) with R132: a reception that gets no frame waits in silence and ends on the tick its timer
holds, in `ReassemblyTimeout`.
The spec marks R208 as its own inference from its other rules (log entry 12). -/
def Obligations.UnfedReceptionTimesOutOnTheLastTick : Prop :=
  ∀ (s : State) (rest : List Stimulus),
    Inv s → s.rx.state = .awaitCf → s.tx.state = .idle → s.input = List.replicate s.rx.tmr tickOk ++ rest →
    (∀ k, k < s.rx.tmr → ∃ t, runFor k s = .next t ∧ t.out = s.out ∧ t.rx.state = .awaitCf) ∧
    runFor s.rx.tmr s = .next { s with
      input := rest, linkOk := true, rx := State.reset.rx, out := s.out ++ [.rxError .reassemblyTimeout] }

/-- 70_reset_and_hazards.md section 3 (R198): with the overall timer off, a peer that says Wait before every tick holds the send for
ever: after any number of rounds it is still waiting and nothing has been reported.
Rests on the spec's own decision D17 (log entry 12). The status byte of Flow Control is PRESUMED (log entry 11). -/
def Obligations.WaitFramesHoldTheSendForever : Prop :=
  ∀ (n : Nat) (s : State) (rest : List Stimulus),
    Inv s → s.tx.state = .waitFc → s.rx.state = .idle → s.cfg.tXferTicks = 0 → 2 ≤ s.cfg.nBsTicks →
    s.input = (List.replicate n [arrives s.cfg [0x31#8, 0#8, 0#8], tickOk]).flatten ++ rest →
    ∃ t, runFor (2 * n) s = .next t ∧ t.tx.state = .waitFc ∧ t.out = s.out ∧ t.input = rest

/-- 41_segmenter.md section 6 (R115), 70_reset_and_hazards.md section 4 (R208): a send of any payload, against a peer that answers with one
unlimited ContinueToSend of any separation time, emits exactly the frames of R115 in order, then `TX_DONE(Ok)`, and
leaves the engine idle. On every tick before the last, `j` ticks after the Flow Control step, the send is still in flight
and the frames out are the First Frame and `ceil(j / s)` Consecutive Frames, `s = max(st_ticks(st), 1)`: the `k`-th leaves
on tick `1 + (k-1)*s`, and `TX_DONE` comes on tick `1 + (ncf-1)*s` and not before.
The spec marks R115, R208 as its own inference from its other rules (log entry 12). The status byte of Flow Control is PRESUMED (log entry 11). -/
def Obligations.CompletedSendEmitsItsFramesInOrder : Prop :=
  ∀ (s : State) (p : List Byte) (st : Byte) (rest : List Stimulus),
    Inv s → s.tx.state = .idle → s.rx.state = .idle → s.cfg.fcEn = true → s.cfg.tXferTicks = 0 → p.length ≤ 4095 →
    s.input = sendScript s.cfg p st ++ rest →
    runFor (sendScript s.cfg p st).length s = .next { s with
      input := rest, linkOk := true
      out := s.out ++ (transferFrames s.cfg.cap p).map (.linkTx s.cfg.txAddr) ++ [.txDone .ok] } ∧
    (s.cfg.cap ≤ p.length →
      let sep := max (stTicks st) 1
      (sendScript s.cfg p st).length = 2 + (1 + (cfCount s.cfg.cap p.length - 1) * sep) ∧
      ∀ j, j < 1 + (cfCount s.cfg.cap p.length - 1) * sep → ∃ t, runFor (2 + j) s = .next t ∧ t.tx.state = .sendCf ∧
        t.out = s.out ++ ((transferFrames s.cfg.cap p).take (1 + (j + (sep - 1)) / sep)).map (.linkTx s.cfg.txAddr))

/-- 42_reassembler.md section 4 (R135 c, e): the frames of a send of any payload the buffer holds, arriving in order, deliver
that payload whole, once and last, after the Flow Control frames R122 and R128 give, and leave the receive half idle; the
transmit half is untouched.
The spec marks R135 as its own inference from its other rules (log entry 12). The Flow Control answers rest on the spec's own
decisions D16, D19 (log entry 12). The status byte of Flow Control is PRESUMED (log entry 11). -/
def Obligations.ReceivedFramesDeliverThePayload : Prop :=
  ∀ (s : State) (p : List Byte) (rest : List Stimulus),
    Inv s → s.rx.state = .idle → p.length ≤ s.cfg.rxBufCap →
    s.input = (transferFrames s.cfg.cap p).map (arrives s.cfg) ++ rest →
    runFor (transferFrames s.cfg.cap p).length s = .next { s with
      input := rest
      linkOk := true
      out := s.out ++ List.replicate (flowAnswers s.cfg p)
        (.linkTx s.cfg.txAddr [0x30#8, s.cfg.rxBs, s.cfg.rxStmin]) ++ [.rxPayload p] }

/-- 42_reassembler.md section 4 (R135 e), 95_test_vectors.md V90: the round trip. What one engine's completed send puts on the link,
given to another engine of the same `CAP`, delivers there exactly the payload sent.
The spec marks R135 as its own inference from its other rules (log entry 12). The status byte of Flow Control is PRESUMED (log entry 11). -/
def Obligations.PayloadsSurviveTheRoundTrip : Prop :=
  ∀ (a b : State) (p : List Byte) (st : Byte),
    Inv a → Inv b → a.tx.state = .idle → a.rx.state = .idle → b.rx.state = .idle → a.cfg.cap = b.cfg.cap →
    a.cfg.fcEn = true → a.cfg.tXferTicks = 0 → p.length ≤ 4095 → p.length ≤ b.cfg.rxBufCap →
    a.input = sendScript a.cfg p st →
    ∃ a', runFor a.input.length a = .next a' ∧
      ∀ rest, b.input = ((emitted a a').filterMap Action.frame?).map (arrives b.cfg) ++ rest →
        ∃ b', runFor ((emitted a a').filterMap Action.frame?).length b = .next b' ∧ b'.rx = State.reset.rx ∧
          b'.tx = b.tx ∧ b'.input = rest ∧ (emitted b b').filter Action.isRxReport = [.rxPayload p]
end

