-- ==== Sys2Proof/Laws/State.lean ====
section
/-!
SUPPORT. What each named update of the state leaves in each field: one lemma a field, so that no proof unfolds an update.
-/

namespace Sys2Proof.Machine

variable (s : State)

/-! `emit` -/
@[simp] theorem emit_cfg (a : Action) : (emit a s).cfg = s.cfg := rfl
@[simp] theorem emit_tx (a : Action) : (emit a s).tx = s.tx := rfl
@[simp] theorem emit_rx (a : Action) : (emit a s).rx = s.rx := rfl
@[simp] theorem emit_input (a : Action) : (emit a s).input = s.input := rfl
@[simp] theorem emit_linkOk (a : Action) : (emit a s).linkOk = s.linkOk := rfl
@[simp] theorem emit_out (a : Action) : (emit a s).out = s.out ++ [a] := rfl

/-! `presentFrame` -/
@[simp] theorem presentFrame_cfg (d : List Byte) : (presentFrame d s).cfg = s.cfg := rfl
@[simp] theorem presentFrame_tx (d : List Byte) : (presentFrame d s).tx = s.tx := rfl
@[simp] theorem presentFrame_rx (d : List Byte) : (presentFrame d s).rx = s.rx := rfl
@[simp] theorem presentFrame_input (d : List Byte) : (presentFrame d s).input = s.input := rfl
@[simp] theorem presentFrame_linkOk (d : List Byte) : (presentFrame d s).linkOk = s.linkOk := rfl
@[simp] theorem presentFrame_out (d : List Byte) : (presentFrame d s).out = s.out ++ [.linkTx s.cfg.txAddr d] := rfl

/-! `clearTx` -/
@[simp] theorem clearTx_cfg : (clearTx s).cfg = s.cfg := rfl
@[simp] theorem clearTx_tx : (clearTx s).tx = .reset := rfl
@[simp] theorem clearTx_rx : (clearTx s).rx = s.rx := rfl
@[simp] theorem clearTx_input : (clearTx s).input = s.input := rfl
@[simp] theorem clearTx_linkOk : (clearTx s).linkOk = s.linkOk := rfl
@[simp] theorem clearTx_out : (clearTx s).out = s.out := rfl

/-! `clearRx` -/
@[simp] theorem clearRx_cfg : (clearRx s).cfg = s.cfg := rfl
@[simp] theorem clearRx_tx : (clearRx s).tx = s.tx := rfl
@[simp] theorem clearRx_rx : (clearRx s).rx = .reset := rfl
@[simp] theorem clearRx_input : (clearRx s).input = s.input := rfl
@[simp] theorem clearRx_linkOk : (clearRx s).linkOk = s.linkOk := rfl
@[simp] theorem clearRx_out : (clearRx s).out = s.out := rfl

/-! `endSend` -/
@[simp] theorem endSend_cfg (r : TxResult) : (endSend r s).cfg = s.cfg := rfl
@[simp] theorem endSend_tx (r : TxResult) : (endSend r s).tx = .reset := rfl
@[simp] theorem endSend_rx (r : TxResult) : (endSend r s).rx = s.rx := rfl
@[simp] theorem endSend_input (r : TxResult) : (endSend r s).input = s.input := rfl
@[simp] theorem endSend_linkOk (r : TxResult) : (endSend r s).linkOk = s.linkOk := rfl
@[simp] theorem endSend_out (r : TxResult) : (endSend r s).out = s.out ++ [.txDone r] := rfl

/-! `raiseTx` -/
@[simp] theorem raiseTx_cfg (e : Error) : (raiseTx e s).cfg = s.cfg := rfl
@[simp] theorem raiseTx_tx (e : Error) : (raiseTx e s).tx = .reset := rfl
@[simp] theorem raiseTx_rx (e : Error) : (raiseTx e s).rx = s.rx := rfl
@[simp] theorem raiseTx_input (e : Error) : (raiseTx e s).input = s.input := rfl
@[simp] theorem raiseTx_linkOk (e : Error) : (raiseTx e s).linkOk = s.linkOk := rfl
@[simp] theorem raiseTx_out (e : Error) : (raiseTx e s).out = s.out ++ [.txDone (.err e)] := rfl

/-! `endReception` -/
@[simp] theorem endReception_cfg (a : Action) : (endReception a s).cfg = s.cfg := rfl
@[simp] theorem endReception_tx (a : Action) : (endReception a s).tx = s.tx := rfl
@[simp] theorem endReception_rx (a : Action) : (endReception a s).rx = .reset := rfl
@[simp] theorem endReception_input (a : Action) : (endReception a s).input = s.input := rfl
@[simp] theorem endReception_linkOk (a : Action) : (endReception a s).linkOk = s.linkOk := rfl
@[simp] theorem endReception_out (a : Action) : (endReception a s).out = s.out ++ [a] := rfl

/-! `raiseRx` -/
@[simp] theorem raiseRx_cfg (e : Error) : (raiseRx e s).cfg = s.cfg := rfl
@[simp] theorem raiseRx_tx (e : Error) : (raiseRx e s).tx = s.tx := rfl
@[simp] theorem raiseRx_rx (e : Error) : (raiseRx e s).rx = .reset := rfl
@[simp] theorem raiseRx_input (e : Error) : (raiseRx e s).input = s.input := rfl
@[simp] theorem raiseRx_linkOk (e : Error) : (raiseRx e s).linkOk = s.linkOk := rfl
@[simp] theorem raiseRx_out (e : Error) : (raiseRx e s).out = s.out ++ [.rxError e] := rfl

/-! `presentFlow` -/
@[simp] theorem presentFlow_cfg (fs : FlowStatus) : (presentFlow fs s).cfg = s.cfg := rfl
@[simp] theorem presentFlow_tx (fs : FlowStatus) : (presentFlow fs s).tx = s.tx := rfl
@[simp] theorem presentFlow_rx (fs : FlowStatus) : (presentFlow fs s).rx = s.rx := rfl
@[simp] theorem presentFlow_input (fs : FlowStatus) : (presentFlow fs s).input = s.input := rfl
@[simp] theorem presentFlow_linkOk (fs : FlowStatus) : (presentFlow fs s).linkOk = s.linkOk := rfl
@[simp] theorem presentFlow_out (fs : FlowStatus) : (presentFlow fs s).out = s.out ++ [.linkTx s.cfg.txAddr (encFC fs s.cfg.rxBs s.cfg.rxStmin)] := rfl

/-! `resetHalves` -/
@[simp] theorem resetHalves_cfg : (resetHalves s).cfg = s.cfg := rfl
@[simp] theorem resetHalves_tx : (resetHalves s).tx = .reset := rfl
@[simp] theorem resetHalves_rx : (resetHalves s).rx = .reset := rfl
@[simp] theorem resetHalves_input : (resetHalves s).input = s.input := rfl
@[simp] theorem resetHalves_linkOk : (resetHalves s).linkOk = s.linkOk := rfl
@[simp] theorem resetHalves_out : (resetHalves s).out = s.out := rfl

/-! `takeStimulus` -/
@[simp] theorem takeStimulus_cfg (x : Stimulus) (rest : List Stimulus) : (takeStimulus x rest s).cfg = s.cfg := rfl
@[simp] theorem takeStimulus_tx (x : Stimulus) (rest : List Stimulus) : (takeStimulus x rest s).tx = s.tx := rfl
@[simp] theorem takeStimulus_rx (x : Stimulus) (rest : List Stimulus) : (takeStimulus x rest s).rx = s.rx := rfl
@[simp] theorem takeStimulus_input (x : Stimulus) (rest : List Stimulus) : (takeStimulus x rest s).input = rest := rfl
@[simp] theorem takeStimulus_linkOk (x : Stimulus) (rest : List Stimulus) : (takeStimulus x rest s).linkOk = x.linkOk := rfl
@[simp] theorem takeStimulus_out (x : Stimulus) (rest : List Stimulus) : (takeStimulus x rest s).out = s.out := rfl

end Sys2Proof.Machine
end

