-- ==== Sys2Proof/Laws/Buffers.lean ====
section
/-!
SUPPORT. Laws of the two buffers: every operation that writes one keeps `Memory.wf`, and what the capped append keeps.
-/

namespace Sys2Proof.Machine

theorem reset_memory_wf : Memory.wf State.reset := by decide

theorem clearTx_memory_wf {s : State} (h : Memory.wf s) : Memory.wf (clearTx s) := ⟨Nat.zero_le _, h.2⟩

theorem clearRx_memory_wf {s : State} (h : Memory.wf s) : Memory.wf (clearRx s) := ⟨h.1, Nat.zero_le _⟩

/-- A send in flight never writes `tx_buf` again; starting one writes a payload that fits. -/
theorem txStarted_buf (cfg : Config) (p : List Byte) (t : TxHalf) : (txStarted cfg p t).buf = p := by
  unfold txStarted; split <;> rfl

theorem txStarted_memory_wf {s : State} {p : List Byte} (h : Memory.wf s) (hp : p.length ≤ maxPayload) :
    Memory.wf { s with tx := txStarted s.cfg p s.tx } :=
  ⟨by simpa [txStarted_buf] using hp, h.2⟩

/-- R42: the fill grows by the bytes that are kept. -/
@[simp] theorem bufAppendCapped_length (r : RxHalf) (p : List Byte) :
    (bufAppendCapped r p).buf.length = r.buf.length + min p.length (r.len - r.buf.length) := by
  simp [bufAppendCapped, appendRoom]

/-- R42: the declared length is never exceeded. -/
theorem bufAppendCapped_le {r : RxHalf} (p : List Byte) (h : r.buf.length ≤ r.len) :
    (bufAppendCapped r p).buf.length ≤ r.len := by
  simp only [bufAppendCapped_length]; omega

theorem bufAppendCapped_memory_wf {s : State} (p : List Byte) (h : Memory.wf s) (hl : s.rx.len ≤ s.cfg.rxBufCap) :
    Memory.wf { s with rx := bufAppendCapped s.rx p } := by
  refine ⟨h.1, ?_⟩
  have := h.2
  simp only [bufAppendCapped_length]
  omega

/-- Bytes already held keep their places. -/
theorem bufAppendCapped_get_old (r : RxHalf) (p : List Byte) {i : Nat} (h : i < r.buf.length) :
    (bufAppendCapped r p).buf[i]? = r.buf[i]? := by
  simp [bufAppendCapped, List.getElem?_append_left h]

theorem rxStarted_memory_wf {s : State} {len : Nat} (c : List Byte) (h : Memory.wf s) (hl : len ≤ s.cfg.rxBufCap) :
    Memory.wf { s with rx := rxStarted s.cfg len c } := by
  refine ⟨h.1, ?_⟩
  simp [rxStarted]; omega

end Sys2Proof.Machine
end

