-- ==== Sys2Proof/Laws/Codec.lean ====
section
/-!
SUPPORT. Laws of the codec: nibbles of a joined byte, the decoder on each first byte the encoder writes, and the
formatters inside and outside their preconditions.
-/

namespace Sys2Proof

@[simp] theorem hiNibble_append (t l : Nibble) : hiNibble (t ++ l) = t := by
  revert t l; decide

@[simp] theorem loNibble_append (t l : Nibble) : loNibble (t ++ l) = l := by
  revert t l; decide

/-- A byte is its two nibbles. -/
theorem nibbles_append (b : Byte) : hiNibble b ++ loNibble b = b := by
  revert b; decide

theorem encode_length (i : Instr) : (encode i).length = 1 + i.tail.length := by
  cases i <;> simp [encode, Instr.tail, Nat.add_comm]

@[simp] theorem flowStatus_flowCode (fs : FlowStatus) : flowStatus (flowCode fs) = some fs := by
  cases fs <;> rfl

/-- The statuses 3 to 15 are unrecognized. -/
theorem flowStatus_eq_none_iff (lo : Nibble) : flowStatus lo = none ↔ 2 < lo.toNat := by
  revert lo; decide

theorem encSF_eq_some_iff (cap : Nat) (p d : List Byte) :
    encSF cap p = some d ↔ p.length ≤ cap - 1 ∧ d = (0x00#8 ||| BitVec.ofNat 8 p.length) :: p := by
  unfold encSF
  split
  · simp only [*, true_and, Option.some.injEq, eq_comm]
  · simp only [*, reduceCtorEq, false_and]

theorem encFF_eq_some_iff (cap len : Nat) (c d : List Byte) :
    encFF cap len c = some d ↔ (cap - 2 < len ∧ len ≤ maxPayload ∧ c.length = cap - 2) ∧
      d = (0x10#8 ||| BitVec.ofNat 8 (len >>> 8)) :: BitVec.ofNat 8 len :: c := by
  unfold encFF
  split
  · simp only [*, true_and, Option.some.injEq, eq_comm]
  · simp only [*, reduceCtorEq, false_and]

theorem encCF_eq_some_iff (cap : Nat) (sn : Nibble) (p d : List Byte) :
    encCF cap sn p = some d ↔ (1 ≤ p.length ∧ p.length ≤ cap - 1) ∧ d = (0x20#8 ||| sn.zeroExtend 8) :: p := by
  unfold encCF
  split
  · simp only [*, true_and, Option.some.injEq, eq_comm]
  · simp only [*, reduceCtorEq, false_and]

@[simp] theorem encFC_length (fs : FlowStatus) (bs st : Byte) : (encFC fs bs st).length = 3 := rfl

/-- A frame the decoder names has a first byte and fits. -/
theorem decodeFrame_eq_ok_iff (cap : Nat) (d : List Byte) (i : Instr) :
    decodeFrame cap d = .ok i ↔ d.length ≤ cap ∧ ∃ b tail, d = b :: tail ∧ decodeForm b tail = i := by
  unfold decodeFrame
  split
  · simp only [reduceCtorEq, false_iff, not_and]; omega
  · have hd : d.length ≤ cap := by omega
    cases d with
    | nil => simp
    | cons b tail => simp only [hd, true_and]; exact ⟨fun h => ⟨b, tail, rfl, by simpa using h⟩, by rintro ⟨_, _, ⟨rfl, rfl⟩, rfl⟩; rfl⟩

/-- The tail of a frame is carried over whole. -/
@[simp] theorem decodeForm_tail (b : Byte) (tail : List Byte) : (decodeForm b tail).tail = tail := by
  unfold decodeForm decodeFcForm
  repeat' split
  all_goals rfl

@[simp] theorem tableFrame_length (len nbits w : Nat) : (tableFrame len nbits w).length = len := by
  simp [tableFrame]

end Sys2Proof
end

