-- ==== Sys2Proof/Laws/Frame.lean ====
section
/-!
SUPPORT. What the rules leave alone, said once for each rule family: the Segmenter's rules keep the receive half, the
Reassembler's keep the transmit half, and both keep the ports and only add to the transcript.
-/

namespace Sys2Proof.Machine

/-- `t` has the configuration and ports of `s`, and its transcript extends that of `s`. -/
structure SamePorts (s t : State) : Prop where
  cfg : t.cfg = s.cfg
  input : t.input = s.input
  linkOk : t.linkOk = s.linkOk
  out : s.out <+: t.out

namespace SamePorts

theorem refl (s : State) : SamePorts s s := ⟨rfl, rfl, rfl, List.prefix_refl _⟩

theorem trans {s t u : State} (h : SamePorts s t) (k : SamePorts t u) : SamePorts s u :=
  ⟨k.cfg.trans h.cfg, k.input.trans h.input, k.linkOk.trans h.linkOk, h.out.trans k.out⟩

theorem emit (a : Action) (s : State) : SamePorts s (emit a s) := ⟨rfl, rfl, rfl, List.prefix_append _ _⟩

theorem setTx (s : State) (h : TxHalf) : SamePorts s { s with tx := h } := ⟨rfl, rfl, rfl, List.prefix_refl _⟩

theorem setRx (s : State) (h : RxHalf) : SamePorts s { s with rx := h } := ⟨rfl, rfl, rfl, List.prefix_refl _⟩

theorem endSend (r : TxResult) (s : State) : SamePorts s (endSend r s) := ⟨rfl, rfl, rfl, List.prefix_append _ _⟩

theorem endReception (a : Action) (s : State) : SamePorts s (endReception a s) :=
  ⟨rfl, rfl, rfl, List.prefix_append _ _⟩

end SamePorts

/-- A rule of the Segmenter: the receive half and the ports stay. -/
structure TxRule (s t : State) : Prop extends SamePorts s t where
  rx : t.rx = s.rx

/-- A rule of the Reassembler: the transmit half and the ports stay. -/
structure RxRule (s t : State) : Prop extends SamePorts s t where
  tx : t.tx = s.tx

theorem TxRule.refl (s : State) : TxRule s s := ⟨.refl s, rfl⟩

theorem RxRule.refl (s : State) : RxRule s s := ⟨.refl s, rfl⟩

theorem TxRule.trans {s t u : State} (h : TxRule s t) (k : TxRule t u) : TxRule s u :=
  ⟨h.toSamePorts.trans k.toSamePorts, k.rx.trans h.rx⟩

theorem RxRule.trans {s t u : State} (h : RxRule s t) (k : RxRule t u) : RxRule s u :=
  ⟨h.toSamePorts.trans k.toSamePorts, k.tx.trans h.tx⟩

/-! ### The Segmenter -/

theorem endSend_txRule (r : TxResult) (s : State) : TxRule s (endSend r s) := ⟨.endSend r s, rfl⟩

theorem emit_txRule (a : Action) (s : State) : TxRule s (emit a s) := ⟨.emit a s, rfl⟩

theorem setTx_txRule (s : State) (h : TxHalf) : TxRule s { s with tx := h } := ⟨.setTx s h, rfl⟩

theorem presentFrame_txRule (d : List Byte) (s : State) : TxRule s (presentFrame d s) := emit_txRule _ _

theorem segSendSingle_txRule {p : List Byte} {s t : State} (h : segSendSingle p s = .next t) : TxRule s t := by
  unfold segSendSingle at h
  split at h <;> cases h
  exact (presentFrame_txRule _ s).trans (emit_txRule _ _)

theorem segSendFirst_txRule {p : List Byte} {s t : State} (h : segSendFirst p s = .next t) : TxRule s t := by
  unfold segSendFirst at h
  (repeat' split at h) <;> cases h
  · exact (presentFrame_txRule _ s).trans (setTx_txRule _ _)
  · exact (presentFrame_txRule _ s).trans (emit_txRule _ _)

theorem segSend_txRule {p : List Byte} {s t : State} (h : segSend p s = .next t) : TxRule s t := by
  unfold segSend at h
  repeat' split at h
  · exact segSendSingle_txRule h
  · exact segSendFirst_txRule h
  · cases h; exact emit_txRule _ _

theorem segAbort_txRule (s : State) : TxRule s (segAbort s) := by
  unfold segAbort; split
  · exact .refl s
  · exact endSend_txRule _ _

theorem segFlow_txRule (fs : FlowStatus) (bs st : Byte) (s : State) : TxRule s (segFlow fs bs st s) := by
  cases fs
  · exact setTx_txRule _ _
  · exact setTx_txRule _ _
  · exact endSend_txRule _ _

theorem countOverall_txRule (s : State) : TxRule s (countOverall s) := by
  unfold countOverall; split
  · exact setTx_txRule _ _
  · exact .refl s

theorem segTickWait_txRule (s : State) : TxRule s (segTickWait s) := by
  unfold segTickWait; split
  · exact endSend_txRule _ _
  · exact setTx_txRule _ _

theorem afterCf_txRule (n : Nat) (s : State) : TxRule s (afterCf n s) := by
  unfold afterCf
  dsimp only
  split
  · exact endSend_txRule _ _
  · split
    · exact setTx_txRule _ _
    · split <;> exact setTx_txRule _ _

theorem segEmitCf_txRule {s t : State} (h : segEmitCf s = .next t) : TxRule s t := by
  unfold segEmitCf at h
  (repeat' split at h) <;> cases h
  · exact (presentFrame_txRule _ s).trans (afterCf_txRule _ _)
  · exact (presentFrame_txRule _ s).trans (endSend_txRule _ _)

theorem segTickSend_txRule {s t : State} (h : segTickSend s = .next t) : TxRule s t := by
  unfold segTickSend at h
  dsimp only at h
  split at h
  · exact (setTx_txRule s _).trans (segEmitCf_txRule h)
  · cases h; exact setTx_txRule _ _

theorem segTick_txRule {s t : State} (h : segTick s = .next t) : TxRule s t := by
  unfold segTick at h
  split at h
  · cases h; exact .refl s
  · split at h <;> cases h
    · exact endSend_txRule _ _
    · exact (countOverall_txRule s).trans (segTickWait_txRule _)
  · split at h
    · cases h; exact endSend_txRule _ _
    · exact (countOverall_txRule s).trans (segTickSend_txRule h)

/-! ### The Reassembler -/

theorem endReception_rxRule (a : Action) (s : State) : RxRule s (endReception a s) := ⟨.endReception a s, rfl⟩

theorem emit_rxRule (a : Action) (s : State) : RxRule s (emit a s) := ⟨.emit a s, rfl⟩

theorem setRx_rxRule (s : State) (h : RxHalf) : RxRule s { s with rx := h } := ⟨.setRx s h, rfl⟩

theorem reaSingle_rxRule (p : List Byte) (s : State) : RxRule s (reaSingle p s) := by
  unfold reaSingle; split
  · exact emit_rxRule _ _
  · exact endReception_rxRule _ _

theorem presentFlow_rxRule (fs : FlowStatus) (s : State) : RxRule s (presentFlow fs s) := emit_rxRule _ _

theorem reaFirst_rxRule (len : Nat) (c : List Byte) (s : State) : RxRule s (reaFirst len c s) := by
  unfold reaFirst reaFirstFits reaFirstTooLong
  repeat' split
  · exact (presentFlow_rxRule _ s).trans (setRx_rxRule _ _)
  · exact (presentFlow_rxRule _ s).trans (emit_rxRule _ _)
  · exact setRx_rxRule _ _
  · exact presentFlow_rxRule _ _
  · exact (presentFlow_rxRule _ s).trans (emit_rxRule _ _)
  · exact .refl s
  · exact endReception_rxRule _ _

theorem reaBlockFc_rxRule (s : State) : RxRule s (reaBlockFc s) := by
  unfold reaBlockFc
  dsimp only
  have h (r : RxHalf) : RxRule s (presentFlow .cts { s with rx := r }) :=
    (setRx_rxRule s r).trans (presentFlow_rxRule _ _)
  repeat' split
  · exact h _
  · exact (h _).trans (endReception_rxRule _ _)
  · exact setRx_rxRule _ _
  · exact .refl s

theorem reaExpected_rxRule (p : List Byte) (s : State) : RxRule s (reaExpected p s) := by
  unfold reaExpected reaComplete
  dsimp only
  split
  · exact (setRx_rxRule s _).trans (endReception_rxRule _ _)
  · exact ((setRx_rxRule s _).trans (setRx_rxRule _ _)).trans (reaBlockFc_rxRule _)

theorem reaConsecutive_rxRule (sn : Nibble) (p : List Byte) (s : State) : RxRule s (reaConsecutive sn p s) := by
  unfold reaConsecutive
  repeat' split
  · exact .refl s
  · exact reaExpected_rxRule _ _
  · exact endReception_rxRule _ _

theorem reaFlow_rxRule (s : State) : RxRule s (reaFlow s) := by
  unfold reaFlow; split
  · exact .refl s
  · exact endReception_rxRule _ _

theorem reaUndecodable_rxRule (e : CodecError) (s : State) : RxRule s (reaUndecodable e s) := by
  unfold reaUndecodable; split
  · exact emit_rxRule _ _
  · exact endReception_rxRule _ _

theorem reaAbort_rxRule (s : State) : RxRule s (reaAbort s) := by
  unfold reaAbort; split
  · exact .refl s
  · exact endReception_rxRule _ _

theorem reaTick_rxRule (s : State) : RxRule s (reaTick s) := by
  unfold reaTick; split
  · exact .refl s
  · split
    · exact endReception_rxRule _ _
    · exact setRx_rxRule _ _

/-! ### The router -/

/-- The verdicts the Segmenter takes: a decoded Flow Control frame while it waits for one (R142). -/
def ForSegmenter (v : Verdict) (s : State) : Prop := s.tx.state = .waitFc ∧ ∃ fs bs st, v = .fc fs bs st

theorem deliver_segmenter {fs : FlowStatus} {bs st : Byte} {s : State} (h : s.tx.state = .waitFc) :
    deliver (.fc fs bs st) s = segFlow fs bs st s := if_pos h

/-- Every other verdict is a rule of the Reassembler. -/
theorem deliver_rxRule {v : Verdict} {s : State} (h : ¬ ForSegmenter v s) : RxRule s (deliver v s) := by
  cases v with
  | sf p => exact reaSingle_rxRule _ _
  | ff len c => exact reaFirst_rxRule _ _ _
  | cf sn p => exact reaConsecutive_rxRule _ _ _
  | fc fs bs st =>
    have h : s.tx.state ≠ .waitFc := fun hw => h ⟨hw, fs, bs, st, rfl⟩
    simp only [deliver, h, if_false]
    exact reaFlow_rxRule s
  | err e => exact reaUndecodable_rxRule _ _

theorem deliver_txRule {v : Verdict} {s : State} (h : ForSegmenter v s) : TxRule s (deliver v s) := by
  obtain ⟨hw, fs, bs, st, rfl⟩ := h
  rw [deliver_segmenter hw]
  exact segFlow_txRule _ _ _ _

theorem deliver_samePorts (v : Verdict) (s : State) : SamePorts s (deliver v s) := by
  by_cases h : ForSegmenter v s
  · exact (deliver_txRule h).toSamePorts
  · exact (deliver_rxRule h).toSamePorts

end Sys2Proof.Machine
end

