-- ==== Sys2Proof/Laws/Transitions.lean ====
section
/-!
SUPPORT. What one step can do, said once: each rule's outcomes as a case list with its guards, from which the statements
about all steps follow without unfolding the rules again.
-/

namespace Sys2Proof.Machine

/-! ### The step -/

theorem step_of_cons {s : State} {x : Stimulus} {rest : List Stimulus} (hl : s.cfg.Legal) (hi : s.input = x :: rest) :
    step s = handle x.event (takeStimulus x rest s) := by
  unfold step serve; rw [if_pos hl, hi]

theorem step_of_nil {s : State} (hl : s.cfg.Legal) (hi : s.input = []) : step s = .next s := by
  unfold step serve; rw [if_pos hl, hi]

/-- A step that answers a next state found a legal configuration. -/
theorem legal_of_step {s t : State} (h : step s = .next t) : s.cfg.Legal := by
  unfold step serve at h
  split at h
  · assumption
  · cases h

/-- A step either stutters or handles the next event. -/
theorem step_cases {s t : State} (h : step s = .next t) :
    (s.input = [] ∧ t = s) ∨
      ∃ x rest, s.input = x :: rest ∧ handle x.event (takeStimulus x rest s) = .next t := by
  have hl := legal_of_step h
  rcases hi : s.input with _ | ⟨x, rest⟩
  · rw [step_of_nil hl hi] at h; cases h; exact .inl ⟨rfl, rfl⟩
  · rw [step_of_cons hl hi] at h; exact .inr ⟨x, rest, rfl, h⟩

/-! ### Runs -/

@[simp] theorem runFor_zero (s : State) : runFor 0 s = .next s := rfl

theorem runFor_succ {s t : State} (k : Nat) (h : step s = .next t) : runFor (k + 1) s = runFor k t := by
  have h' : Sys2Proof.core.step s = .next t := h
  unfold runFor
  simp only [Host.Core.run, h']
  rfl

theorem runFor_add {s t : State} (j k : Nat) (h : runFor j s = .next t) : runFor (j + k) s = runFor k t := by
  induction j generalizing s with
  | zero => cases h; rw [Nat.zero_add]
  | succ j ih =>
    have h' : Sys2Proof.core.run (j + 1) s = .next t := h
    rw [Nat.add_right_comm]
    cases hs : step s with
    | next u => rw [runFor_succ j hs] at h; rw [runFor_succ _ hs]; exact ih h
    | fault r =>
      have hs' : Sys2Proof.core.step s = .fault r := hs
      simp [Host.Core.run, hs'] at h'
    | refused r =>
      have hs' : Sys2Proof.core.step s = .refused r := hs
      simp [Host.Core.run, hs'] at h'

/-! ### The router -/

theorem receiveFrame_ok {a : Addr} {d : List Byte} {s : State} {i : Instr} (ha : a = s.cfg.rxAddr)
    (hd : decodeFrame s.cfg.cap d = .ok i) : receiveFrame a d s = exec i s := by
  unfold receiveFrame; rw [if_pos ha, hd]

theorem receiveFrame_empty {a : Addr} {s : State} (ha : a = s.cfg.rxAddr) :
    receiveFrame a [] s = .next (deliver (.err .malformedFrame) s) := by
  simp [receiveFrame, ha, decodeFrame]

theorem receiveFrame_other {a : Addr} {d : List Byte} {s : State} (ha : a ≠ s.cfg.rxAddr) :
    receiveFrame a d s = .next s := if_neg ha

/-! ### `tx_tick` -/

theorem overallExpires_eq_false {s : State} (h : s.cfg.tXferTicks = 0 ∨ 1 < s.tx.total) : overallExpires s = false := by
  have : s.cfg.tXferTicks = 0 ∨ ¬ s.tx.total - 1 = 0 := by omega
  unfold overallExpires countDown
  rcases this with h | h <;> simp [h]

theorem countOverall_eq (s : State) :
    countOverall s =
      { s with tx := { s.tx with total := if 0 < s.cfg.tXferTicks then countDown s.tx.total else s.tx.total } } := by
  unfold countOverall; split <;> simp [*]

/-- R110: the four things an accepted Consecutive Frame can lead to. -/
theorem afterCf_cases (n : Nat) (s : State) :
    (s.tx.off + n = s.tx.len ∧ afterCf n s = endSend .ok s) ∨
    (s.tx.off + n ≠ s.tx.len ∧ s.tx.bs = 0 ∧
      afterCf n s = { s with tx := { s.tx with off := s.tx.off + n, sn := nextSn s.tx.sn, gap := s.tx.st } }) ∨
    (s.tx.off + n ≠ s.tx.len ∧ s.tx.bs ≠ 0 ∧ countDown s.tx.bsRem = 0 ∧
      afterCf n s = { s with tx := { s.tx with
        off := s.tx.off + n, sn := nextSn s.tx.sn, bsRem := countDown s.tx.bsRem, state := .waitFc
        tmr := s.cfg.nBsTicks } }) ∨
    (s.tx.off + n ≠ s.tx.len ∧ s.tx.bs ≠ 0 ∧ countDown s.tx.bsRem ≠ 0 ∧
      afterCf n s = { s with tx := { s.tx with
        off := s.tx.off + n, sn := nextSn s.tx.sn, bsRem := countDown s.tx.bsRem, gap := s.tx.st } }) := by
  unfold afterCf
  dsimp only
  repeat' split
  · exact .inl ⟨‹_›, rfl⟩
  · exact .inr (.inl ⟨‹_›, ‹_›, rfl⟩)
  · exact .inr (.inr (.inl ⟨‹_›, ‹_›, ‹_›, rfl⟩))
  · exact .inr (.inr (.inr ⟨‹_›, ‹_›, ‹_›, rfl⟩))

/-- R109, R111: a due frame is presented; the link's answer decides. -/
theorem segEmitCf_cases {s t : State} (h : segEmitCf s = .next t) :
    ∃ d, encCF s.cfg.cap s.tx.sn (bufSlice s.tx s.tx.off (cfBytes s.cfg.cap s.tx)) = some d ∧
      ((s.linkOk = true ∧ t = afterCf (cfBytes s.cfg.cap s.tx) (presentFrame d s)) ∨
        (s.linkOk = false ∧ t = raiseTx .linkError (presentFrame d s))) := by
  unfold segEmitCf at h
  split at h
  · cases h
  · rename_i d hd
    refine ⟨d, hd, ?_⟩
    split at h <;> cases h
    · exact .inl ⟨‹_›, rfl⟩
    · exact .inr ⟨by simpa using ‹¬ s.linkOk = true›, rfl⟩

/-- R107 to R109, R143, R174: what the transmit half's tick can do. -/
theorem segTick_cases {s t : State} (h : segTick s = .next t) :
    let total := if 0 < s.cfg.tXferTicks then countDown s.tx.total else s.tx.total
    (s.tx.state = .idle ∧ t = s) ∨
    (s.tx.state ≠ .idle ∧ t = raiseTx .flowControlTimeout s) ∨
    (s.tx.state = .waitFc ∧ overallExpires s = false ∧ countDown s.tx.tmr ≠ 0 ∧
      t = { s with tx := { s.tx with total := total, tmr := countDown s.tx.tmr } }) ∨
    (s.tx.state = .sendCf ∧ overallExpires s = false ∧ countDown s.tx.gap ≠ 0 ∧
      t = { s with tx := { s.tx with total := total, gap := countDown s.tx.gap } }) ∨
    (s.tx.state = .sendCf ∧ overallExpires s = false ∧ countDown s.tx.gap = 0 ∧
      segEmitCf { s with tx := { s.tx with total := total, gap := 0 } } = .next t) := by
  intro total
  unfold segTick at h
  split at h
  · cases h; exact .inl ⟨‹_›, rfl⟩
  · rename_i hs
    have hn : s.tx.state ≠ .idle := by simp [hs]
    split at h <;> cases h
    · exact .inr (.inl ⟨hn, rfl⟩)
    · rw [countOverall_eq]
      unfold segTickWait
      by_cases hz : countDown s.tx.tmr = 0
      · exact .inr (.inl ⟨hn, if_pos hz⟩)
      · exact .inr (.inr (.inl ⟨hs, by simpa using ‹¬ overallExpires s = true›, hz, if_neg hz⟩))
  · rename_i hs
    have hn : s.tx.state ≠ .idle := by simp [hs]
    split at h
    · cases h; exact .inr (.inl ⟨hn, rfl⟩)
    · have he : overallExpires s = false := by simpa using ‹¬ overallExpires s = true›
      rw [countOverall_eq] at h
      unfold segTickSend at h
      dsimp only at h
      split at h
      · rename_i hg
        rw [hg] at h
        exact .inr (.inr (.inr (.inr ⟨hs, he, hg, h⟩)))
      · cases h
        exact .inr (.inr (.inr (.inl ⟨hs, he, ‹_›, rfl⟩)))

/-! ### The receive half -/

/-- R132: what the receive half's tick can do. -/
theorem reaTick_cases (s : State) :
    (s.rx.state = .idle ∧ reaTick s = s) ∨
    (s.rx.state = .awaitCf ∧ countDown s.rx.tmr = 0 ∧ reaTick s = raiseRx .reassemblyTimeout s) ∨
    (s.rx.state = .awaitCf ∧ countDown s.rx.tmr ≠ 0 ∧
      reaTick s = { s with rx := { s.rx with tmr := countDown s.rx.tmr } }) := by
  unfold reaTick
  split
  · exact .inl ⟨‹_›, rfl⟩
  · split
    · exact .inr (.inl ⟨‹_›, ‹_›, rfl⟩)
    · exact .inr (.inr ⟨‹_›, ‹_›, rfl⟩)

/-- R128: what a block boundary can do. -/
theorem reaBlockFc_cases (s : State) :
    let due := { s with rx := { s.rx with bsRem := s.cfg.rxBs.toNat } }
    (¬ (s.cfg.fcEn ∧ 0 < s.cfg.rxBs.toNat) ∧ reaBlockFc s = s) ∨
    ((s.cfg.fcEn ∧ 0 < s.cfg.rxBs.toNat) ∧ countDown s.rx.bsRem = 0 ∧
      ((s.linkOk = true ∧ reaBlockFc s = presentFlow .cts due) ∨
        (s.linkOk = false ∧ reaBlockFc s = raiseRx .linkError (presentFlow .cts due)))) ∨
    ((s.cfg.fcEn ∧ 0 < s.cfg.rxBs.toNat) ∧ countDown s.rx.bsRem ≠ 0 ∧
      reaBlockFc s = { s with rx := { s.rx with bsRem := countDown s.rx.bsRem } }) := by
  intro due
  unfold reaBlockFc
  split
  · rename_i he
    split
    · refine .inr (.inl ⟨he, ‹_›, ?_⟩)
      cases hk : s.linkOk
      · exact .inr ⟨rfl, by simp [hk, due]⟩
      · exact .inl ⟨rfl, by simp [hk, due]⟩
    · exact .inr (.inr ⟨he, ‹_›, rfl⟩)
  · exact .inl ⟨‹_›, rfl⟩

/-- R126: what the expected Consecutive Frame can do. -/
theorem reaExpected_cases (p : List Byte) (s : State) :
    let filled := { bufAppendCapped s.rx p with sn := nextSn s.rx.sn }
    (filled.buf.length = s.rx.len ∧ reaExpected p s = endReception (.rxPayload filled.buf) s) ∨
    (filled.buf.length ≠ s.rx.len ∧
      reaExpected p s = reaBlockFc { s with rx := { filled with tmr := s.cfg.nCrTicks } }) := by
  intro filled
  unfold reaExpected
  dsimp only
  split
  · exact .inl ⟨‹_›, rfl⟩
  · exact .inr ⟨‹_›, rfl⟩

/-- R122, R123, R130, R133, R136: what a First Frame can do. -/
theorem reaFirst_cases (len : Nat) (c : List Byte) (s : State) :
    (s.rx.state = .awaitCf ∧ reaFirst len c s = raiseRx .protocolViolation s) ∨
    (s.rx.state = .idle ∧ len ≤ s.cfg.rxBufCap ∧
      ((s.cfg.fcEn = true ∧ s.linkOk = true ∧
          reaFirst len c s = { presentFlow .cts s with rx := rxStarted s.cfg len c }) ∨
        (s.cfg.fcEn = true ∧ s.linkOk = false ∧
          reaFirst len c s = emit (.rxError .linkError) (presentFlow .cts s)) ∨
        (s.cfg.fcEn = false ∧ reaFirst len c s = { s with rx := rxStarted s.cfg len c }))) ∨
    (s.rx.state = .idle ∧ s.cfg.rxBufCap < len ∧
      ((s.cfg.fcEn = true ∧ s.linkOk = true ∧ reaFirst len c s = presentFlow .ovflw s) ∨
        (s.cfg.fcEn = true ∧ s.linkOk = false ∧
          reaFirst len c s = emit (.rxError .linkError) (presentFlow .ovflw s)) ∨
        (s.cfg.fcEn = false ∧ reaFirst len c s = s))) := by
  unfold reaFirst reaFirstFits reaFirstTooLong
  cases hs : s.rx.state <;> cases hf : s.cfg.fcEn <;> cases hk : s.linkOk <;>
    by_cases hl : len ≤ s.cfg.rxBufCap <;> simp [hl, Nat.not_le.1]

end Sys2Proof.Machine
end

