-- ==== Sys2Proof/Laws/Independence.lean ====
section
/-!
SUPPORT. The two halves (43_session.md R146): a rule of the Segmenter commutes with replacing the receive half, a rule of
the Reassembler with replacing the transmit half, so that neither reads the other, whatever it emits.
-/

namespace Sys2Proof.Machine

/-- An answer with its receive half replaced. -/
def Result.withRx (r : RxHalf) : Result → Result
  | .next t => .next { t with rx := r }
  | .fault x => .fault x
  | .refused x => .refused x

/-! ### The Segmenter -/

theorem afterCf_withRx (n : Nat) (s : State) (r : RxHalf) :
    afterCf n { s with rx := r } = { afterCf n s with rx := r } := by
  unfold afterCf
  dsimp only
  repeat' split
  all_goals rfl

theorem segEmitCf_withRx (s : State) (r : RxHalf) : segEmitCf { s with rx := r } = Result.withRx r (segEmitCf s) := by
  unfold segEmitCf
  dsimp only
  split
  · rfl
  · rename_i d _
    show (if s.linkOk = true then Host.Outcome.next (afterCf _ { presentFrame d s with rx := r }) else _) = _
    rw [afterCf_withRx]
    split <;> rfl

theorem segTick_withRx (s : State) (r : RxHalf) : segTick { s with rx := r } = Result.withRx r (segTick s) := by
  unfold segTick
  dsimp only
  split
  · rfl
  · show (if overallExpires s = true then _ else _) = _
    split
    · rfl
    · rw [countOverall_eq, countOverall_eq]
      unfold segTickWait
      dsimp only
      split <;> rfl
  · show (if overallExpires s = true then _ else _) = _
    split
    · rfl
    · rw [countOverall_eq, countOverall_eq]
      unfold segTickSend
      dsimp only
      split
      · exact segEmitCf_withRx { s with tx :=
          { s.tx with gap := countDown s.tx.gap,
                      total := if 0 < s.cfg.tXferTicks then countDown s.tx.total else s.tx.total } } r
      · rfl

theorem segSend_withRx (p : List Byte) (s : State) (r : RxHalf) :
    segSend p { s with rx := r } = Result.withRx r (segSend p s) := by
  unfold segSend segSendSingle segSendFirst
  dsimp only
  repeat' split
  all_goals rfl

theorem segAbort_withRx (s : State) (r : RxHalf) : segAbort { s with rx := r } = { segAbort s with rx := r } := by
  unfold segAbort
  dsimp only
  split <;> rfl

theorem segFlow_withRx (fs : FlowStatus) (bs st : Byte) (s : State) (r : RxHalf) :
    segFlow fs bs st { s with rx := r } = { segFlow fs bs st s with rx := r } := by
  cases fs <;> rfl

/-! ### The Reassembler -/

theorem reaTick_withTx (s : State) (h : TxHalf) : reaTick { s with tx := h } = { reaTick s with tx := h } := by
  unfold reaTick
  dsimp only
  split
  · rfl
  · split <;> rfl

theorem reaAbort_withTx (s : State) (h : TxHalf) : reaAbort { s with tx := h } = { reaAbort s with tx := h } := by
  unfold reaAbort
  dsimp only
  split <;> rfl

theorem reaBlockFc_withTx (s : State) (h : TxHalf) : reaBlockFc { s with tx := h } = { reaBlockFc s with tx := h } := by
  unfold reaBlockFc
  dsimp only
  repeat' split
  all_goals first | rfl | contradiction

theorem reaConsecutive_withTx (sn : Nibble) (p : List Byte) (s : State) (h : TxHalf) :
    reaConsecutive sn p { s with tx := h } = { reaConsecutive sn p s with tx := h } := by
  unfold reaConsecutive
  dsimp only
  split
  · rfl
  · split
    · unfold reaExpected
      dsimp only
      split
      · rfl
      · exact reaBlockFc_withTx { s with rx :=
          { bufAppendCapped s.rx p with sn := nextSn s.rx.sn, tmr := s.cfg.nCrTicks } } h
    · rfl

/-- The Reassembler's side of the router reads no transmit register but `tx_state`. -/
theorem deliver_withTx {v : Verdict} {s : State} {h : TxHalf} (hn : ¬ ForSegmenter v s) (hh : h.state = s.tx.state) :
    deliver v { s with tx := h } = { deliver v s with tx := h } := by
  cases v with
  | sf p => simp only [deliver]; unfold reaSingle; dsimp only; split <;> rfl
  | ff len c =>
    simp only [deliver]
    unfold reaFirst reaFirstFits reaFirstTooLong
    dsimp only
    repeat' split
    all_goals rfl
  | cf sn p => exact reaConsecutive_withTx sn p s h
  | fc fs bs st =>
    have hw : s.tx.state ≠ .waitFc := fun hw => hn ⟨hw, fs, bs, st, rfl⟩
    simp only [deliver, hh, hw, if_false]
    unfold reaFlow
    dsimp only
    split <;> rfl
  | err e => simp only [deliver]; unfold reaUndecodable; dsimp only; split <;> rfl

end Sys2Proof.Machine
end

