-- ==== Sys2Proof/Laws/Invariants.lean ====
section
/-!
SUPPORT. The invariants rule by rule: each rule of the Segmenter keeps those of the transmit half, each of the Reassembler
those of the receive half, and the router both.
-/

namespace Sys2Proof.Machine

theorem TxInv.ofReset (c : Config) : TxInv c .reset where
  idle _ := rfl
  length h := absurd rfl h
  offset h := absurd rfl h
  buffer h := absurd rfl h
  sequence h := absurd rfl h
  waitTimer h := by cases h
  handshake h := by cases h
  unpaced _ := ⟨rfl, rfl⟩
  block h := by cases h
  overall _ h := absurd rfl h
  timerWidth := ⟨Nat.zero_le _, Nat.zero_le _⟩
  blockWidth := ⟨Nat.zero_le _, Nat.zero_le _⟩
  separationWidth := ⟨Nat.zero_le _, Nat.zero_le _⟩

theorem RxInv.ofReset (c : Config) : RxInv c .reset where
  idle _ := rfl
  length h := by cases h
  fill h := by cases h
  timer h := by cases h
  block h := by cases h
  blockWidth := Nat.zero_le _

/-- R90: a separation time fits 11 bits. -/
theorem stTicks_le : ∀ b : Byte, stTicks b ≤ 1270 := by decide +kernel

/-- `SEND` keeps the transmit half's invariants. -/
theorem segSend_txInv {s : State} (h : Inv s) {p : List Byte} (hp : PayloadFits p) {t : State}
    (ht : segSend p s = .next t) : TxInv t.cfg t.tx := by
  unfold segSend at ht
  split at ht
  · rename_i hs
    split at ht
    · unfold segSendSingle at ht; split at ht <;> cases ht
      exact h.tx
    · rename_i hc
      unfold segSendFirst at ht
      split at ht
      · cases ht
      · split at ht <;> cases ht
        · have hl := h.legal
          simp only [presentFrame_cfg]
          have hr := h.tx.idle hs
          have hp' : p.length ≤ maxPayload := hp
          rw [hr]
          unfold txStarted
          cases hf : s.cfg.fcEn
          · constructor <;> simp [TxHalf.reset, hf, maxPayload] at * <;> try omega
            try exact ⟨0, rfl, rfl⟩
          · constructor <;> simp [TxHalf.reset, hf, maxPayload] at * <;> try omega
            try exact ⟨0, rfl, rfl⟩
        · exact h.tx
  · cases ht; exact h.tx

/-- A Flow Control frame at the Segmenter keeps them. -/
theorem segFlow_txInv {s : State} (h : Inv s) (hw : s.tx.state = .waitFc) (fs : FlowStatus) (bs st : Byte) :
    TxInv s.cfg (segFlow fs bs st s).tx := by
  have hx := h.tx
  have hl := h.legal
  have hne : s.tx.state ≠ .idle := by simp [hw]
  cases fs
  · have := stTicks_le st
    constructor
    · intro h; cases h
    · intro _; exact hx.length hne
    · intro _; exact hx.offset hne
    · intro _; exact hx.buffer hne
    · intro _; exact hx.sequence hne
    · intro h; cases h
    · intro h; cases h
    · intro h; have := hx.handshake hw; simp [h] at *
    · intro _ h; simp [segFlow, segContinue] at *; omega
    · intro h _; exact hx.overall h hne
    · exact hx.timerWidth
    · simp [segFlow, segContinue]; omega
    · simp [segFlow, segContinue]; omega
  · constructor
    · intro h; rw [show (segFlow .wait bs st s).tx.state = s.tx.state from rfl, hw] at h; cases h
    · intro _; exact hx.length hne
    · intro _; exact hx.offset hne
    · intro _; exact hx.buffer hne
    · intro _; exact hx.sequence hne
    · intro h; exact hl.2.1.1
    · intro h; exact hx.handshake hw
    · exact hx.unpaced
    · intro h; rw [show (segFlow .wait bs st s).tx.state = s.tx.state from rfl, hw] at h; cases h
    · intro h _; exact hx.overall h hne
    · exact ⟨Nat.le_refl _, hx.timerWidth.2⟩
    · exact hx.blockWidth
    · exact hx.separationWidth
  · exact .ofReset _

/-- R108: a tick on which the overall timer does not fire leaves it in range. -/
theorem overall_inv {s : State} (h : Inv s) (hn : s.tx.state ≠ .idle) (he : overallExpires s = false) :
   let total := if 0 < s.cfg.tXferTicks then countDown s.tx.total else s.tx.total
   (0 < s.cfg.tXferTicks → 1 ≤ total) ∧ total ≤ s.cfg.tXferTicks := by
  have h1 := h.tx.overall
  have h2 := h.tx.timerWidth.2
  unfold overallExpires at he
  simp only
  split
  · simp_all [countDown]; omega
  · exact ⟨fun h => absurd h (by assumption), h2⟩

/-- `tx_tick` keeps them. -/
theorem segTick_txInv {s t : State} (h : Inv s) (ht : segTick s = .next t) : TxInv t.cfg t.tx := by
  have hx := h.tx
  have hl := h.legal
  rcases segTick_cases ht with ⟨_, rfl⟩ | ⟨_, rfl⟩ | ⟨hs, he, hz, rfl⟩ | ⟨hs, he, hz, rfl⟩ | ⟨hs, he, hz, hh⟩
  · exact hx
  · exact .ofReset _
  · have hn : s.tx.state ≠ .idle := by simp [hs]
    obtain ⟨t1, t2⟩ := overall_inv h hn he
    obtain ⟨x1, x2, x3, x4, x5, x6, x7, x8, x9, x10, x11, x12, x13⟩ := hx
    unfold countDown at *
    constructor <;> (try simp only [hs] at *) <;> simp_all <;> try omega
  · have hn : s.tx.state ≠ .idle := by simp [hs]
    obtain ⟨t1, t2⟩ := overall_inv h hn he
    obtain ⟨x1, x2, x3, x4, x5, x6, x7, x8, x9, x10, x11, x12, x13⟩ := hx
    constructor <;> simp_all [countDown]; try omega
  · have hn : s.tx.state ≠ .idle := by simp [hs]
    obtain ⟨t1, t2⟩ := overall_inv h hn he
    generalize (if 0 < s.cfg.tXferTicks then countDown s.tx.total else s.tx.total) = total at *
    have hlen := hx.length hn
    have hoff := hx.offset hn
    have hbuf := hx.buffer hn
    obtain ⟨k, hk1, hk2⟩ := hx.sequence hn
    obtain ⟨d, -, ⟨hk, rfl⟩ | ⟨hk, rfl⟩⟩ := segEmitCf_cases hh
    · have hsn : nextSn s.tx.sn = BitVec.ofNat 4 (1 + (k+1)) := by
        rw [hk2, nextSn]; apply BitVec.eq_of_toNat_eq; simp; omega
      have hseq : s.tx.off + cfBytes s.cfg.cap s.tx ≠ s.tx.len →
          s.tx.off + cfBytes s.cfg.cap s.tx = (s.cfg.cap - 2) + (k+1) * (s.cfg.cap - 1) := by
        intro h; rw [Nat.succ_mul]; unfold cfBytes at *; omega
      have hoff' : s.tx.off + cfBytes s.cfg.cap s.tx ≠ s.tx.len → s.tx.off + cfBytes s.cfg.cap s.tx < s.tx.len := by
        intro h; unfold cfBytes at *; omega
      rcases afterCf_cases (cfBytes s.cfg.cap { s.tx with total := total, gap := 0 })
        (presentFrame d { s with tx := { s.tx with total := total, gap := 0 } }) with
        ⟨_, h⟩ | ⟨h1, h2, h⟩ | ⟨h1, h2, h3, h⟩ | ⟨h1, h2, h3, h⟩
      · rw [h]; exact .ofReset _
      · rw [h]
        have h1 : s.tx.off + cfBytes s.cfg.cap s.tx ≠ s.tx.len := h1
        refine ⟨fun h => ?_, fun _ => hlen, fun _ => ⟨?_, hoff' h1⟩, fun _ => hbuf, fun _ => ⟨k+1, hseq h1, hsn⟩,
          fun h => ?_, fun h => ?_, hx.unpaced, fun _ => hx.block hs, fun a b => t1 a,
          ⟨hx.timerWidth.1, t2⟩, hx.blockWidth, ⟨hx.separationWidth.1, Nat.le_refl _⟩⟩
        · simp [hs] at h
        · exact Nat.le_trans hoff.1 (Nat.le_add_right _ _)
        · simp [hs] at h
        · simp [hs] at h
      · rw [h]
        have h1 : s.tx.off + cfBytes s.cfg.cap s.tx ≠ s.tx.len := h1
        refine ⟨fun h => ?_, fun _ => hlen, fun _ => ⟨?_, hoff' h1⟩, fun _ => hbuf, fun _ => ⟨k+1, hseq h1, hsn⟩,
          fun h => hl.2.1.1, fun h => ?_, hx.unpaced, fun h => ?_, fun a b => t1 a,
          ⟨Nat.le_refl _, t2⟩, ⟨hx.blockWidth.1, ?_⟩, ⟨hx.separationWidth.1, Nat.zero_le _⟩⟩
        · simp at h
        · exact Nat.le_trans hoff.1 (Nat.le_add_right _ _)
        · simp only [presentFrame_cfg]; cases hf : s.cfg.fcEn; exact absurd (hx.unpaced hf).1 h2; rfl
        · simp at h
        · exact Nat.le_trans (Nat.sub_le _ _) hx.blockWidth.2
      · rw [h]
        have h1 : s.tx.off + cfBytes s.cfg.cap s.tx ≠ s.tx.len := h1
        refine ⟨fun h => ?_, fun _ => hlen, fun _ => ⟨?_, hoff' h1⟩, fun _ => hbuf, fun _ => ⟨k+1, hseq h1, hsn⟩,
          fun h => ?_, fun h => ?_, hx.unpaced, fun h a => Nat.pos_of_ne_zero h3, fun a b => t1 a,
          ⟨hx.timerWidth.1, t2⟩, ⟨hx.blockWidth.1, ?_⟩, ⟨hx.separationWidth.1, Nat.le_refl _⟩⟩
        · simp [hs] at h
        · exact Nat.le_trans hoff.1 (Nat.le_add_right _ _)
        · simp [hs] at h
        · simp [hs] at h
        · exact Nat.le_trans (Nat.sub_le _ _) hx.blockWidth.2
    · exact .ofReset _

/-- A Single Frame keeps the receive half's invariants. -/
theorem reaSingle_rxInv {s : State} (h : Inv s) (p : List Byte) : RxInv s.cfg (reaSingle p s).rx := by
  unfold reaSingle; split
  · exact h.rx
  · exact .ofReset _

/-- A First Frame that starts a reception establishes them. -/
theorem rxStarted_rxInv {c : Config} (hl : c.Legal) {len : Nat} {chunk : List Byte} (h1 : c.cap - 2 < len)
    (h2 : chunk.length < len) (h3 : len ≤ c.rxBufCap) : RxInv c (rxStarted c len chunk) := by
  constructor <;> simp [rxStarted] at * <;> omega

/-- A First Frame keeps them. -/
theorem reaFirst_rxInv {s : State} (h : Inv s) {len : Nat} {chunk : List Byte} (h1 : s.cfg.cap - 2 < len)
    (h2 : chunk.length < len) : RxInv s.cfg (reaFirst len chunk s).rx := by
  rcases reaFirst_cases len chunk s with ⟨_, e⟩ | ⟨_, h3, ⟨_, _, e⟩ | ⟨_, _, e⟩ | ⟨_, e⟩⟩ |
    ⟨_, h3, ⟨_, _, e⟩ | ⟨_, _, e⟩ | ⟨_, e⟩⟩ <;> rw [e]
  · exact .ofReset _
  · exact rxStarted_rxInv h.legal h1 h2 h3
  · exact h.rx
  · exact rxStarted_rxInv h.legal h1 h2 h3
  · exact h.rx
  · exact h.rx
  · exact h.rx

/-- R126, R42: the half after an append that does not complete, whatever block counter in range it is left with. -/
theorem appended_rxInv {s : State} (h : Inv s) (hs : s.rx.state = .awaitCf) {p : List Byte} {b : Nat}
    (hb : b ≤ s.cfg.rxBs.toNat) (hb' : 0 < s.cfg.rxBs.toNat → 1 ≤ b)
    (hne : (bufAppendCapped s.rx p).buf.length ≠ s.rx.len) :
    RxInv s.cfg { bufAppendCapped s.rx p with sn := nextSn s.rx.sn, tmr := s.cfg.nCrTicks, bsRem := b } where
  idle h := by rw [show s.rx.state = .idle from h] at hs; cases hs
  length _ := h.rx.length hs
  fill _ := Nat.lt_of_le_of_ne (bufAppendCapped_le p (Nat.le_of_lt (h.rx.fill hs))) hne
  timer _ := ⟨h.legal.2.2.1.1, Nat.le_refl _⟩
  block _ h := hb' h
  blockWidth := hb

/-- A Consecutive Frame keeps them. -/
theorem reaConsecutive_rxInv {s : State} (h : Inv s) (sn : Nibble) (p : List Byte) :
    RxInv s.cfg (reaConsecutive sn p s).rx := by
  unfold reaConsecutive
  split
  · exact h.rx
  · rename_i hs
    split
    · have hw := h.rx.blockWidth
      rcases reaExpected_cases p s with ⟨_, e⟩ | ⟨hne, e⟩ <;> rw [e]
      · exact .ofReset _
      · rcases reaBlockFc_cases
          { s with rx := { bufAppendCapped s.rx p with sn := nextSn s.rx.sn, tmr := s.cfg.nCrTicks } } with
          ⟨_, e⟩ | ⟨_, _, ⟨_, e⟩ | ⟨_, e⟩⟩ | ⟨_, hz, e⟩ <;> rw [e]
        · exact appended_rxInv h hs hw (h.rx.block hs) hne
        · exact appended_rxInv h hs (Nat.le_refl _) (fun h => h) hne
        · exact .ofReset _
        · exact appended_rxInv h hs (Nat.le_trans (Nat.sub_le _ _) hw) (fun _ => Nat.pos_of_ne_zero hz) hne
    · exact .ofReset _

/-- A Flow Control frame at the Reassembler keeps them. -/
theorem reaFlow_rxInv {s : State} (h : Inv s) : RxInv s.cfg (reaFlow s).rx := by
  unfold reaFlow; split
  · exact h.rx
  · exact .ofReset _

/-- A rejected frame keeps them. -/
theorem reaUndecodable_rxInv {s : State} (h : Inv s) (e : CodecError) : RxInv s.cfg (reaUndecodable e s).rx := by
  unfold reaUndecodable; split
  · exact h.rx
  · exact .ofReset _

/-- `ABORT_RX` keeps them. -/
theorem reaAbort_rxInv {s : State} (h : Inv s) : RxInv s.cfg (reaAbort s).rx := by
  unfold reaAbort; split
  · exact h.rx
  · exact .ofReset _

/-- `rx_tick` keeps them. -/
theorem reaTick_rxInv {s : State} (h : Inv s) : RxInv s.cfg (reaTick s).rx := by
  rcases reaTick_cases s with ⟨_, e⟩ | ⟨_, _, e⟩ | ⟨hs, hz, e⟩ <;> rw [e]
  · exact h.rx
  · exact .ofReset _
  · exact ⟨fun h => by simp [hs] at h, h.rx.length, h.rx.fill,
      fun _ => ⟨Nat.pos_of_ne_zero hz, Nat.le_trans (Nat.sub_le _ _) (h.rx.timer hs).2⟩, h.rx.block, h.rx.blockWidth⟩

/-- R82: a decoded First Frame announces more than it carries. -/
theorem codecDecode_ff {cap len : Nat} {d chunk : List Byte} (h : codecDecode cap d = .ff len chunk)
    (hd : d.length ≤ cap) : cap - 2 < len ∧ chunk.length < len := by
  unfold codecDecode at h
  split at h
  · cases h
  · rename_i b tail
    simp only [List.length_cons] at hd
    (repeat' split at h) <;> (try unfold decodeSF at h) <;> (try unfold decodeFF at h) <;> (try unfold decodeCF at h) <;>
      (try unfold decodeFC at h) <;> (try unfold decodeUnsupported at h) <;> (repeat' split at h) <;> cases h
    simp only [List.length_cons] at hd
    omega

/-- The router keeps the invariants of both halves. -/
theorem deliver_inv {s : State} (h : Inv s) {d : List Byte} (hd : d.length ≤ s.cfg.cap) :
    Inv (deliver (codecDecode s.cfg.cap d) s) := by
  have hp := deliver_samePorts (codecDecode s.cfg.cap d) s
  by_cases hf : ForSegmenter (codecDecode s.cfg.cap d) s
  · have ht := deliver_txRule hf
    obtain ⟨hw, fs, bs, st, hv⟩ := hf
    refine ⟨by rw [hp.cfg]; exact h.legal, ?_, by rw [hp.cfg, ht.rx]; exact h.rx⟩
    rw [hp.cfg, hv, deliver_segmenter hw]
    exact segFlow_txInv h hw _ _ _
  · have hr := deliver_rxRule hf
    refine ⟨by rw [hp.cfg]; exact h.legal, by rw [hp.cfg, hr.tx]; exact h.tx, ?_⟩
    rw [hp.cfg]
    rcases hv : codecDecode s.cfg.cap d with p | ⟨len, c⟩ | ⟨sn, p⟩ | ⟨fs, bs, st⟩ | e
    · exact reaSingle_rxInv h _
    · obtain ⟨a, b⟩ := codecDecode_ff hv hd
      exact reaFirst_rxInv h a b
    · exact reaConsecutive_rxInv h _ _
    · simp only [deliver]
      rw [if_neg fun hw => hf ⟨hw, _, _, _, hv⟩]
      exact reaFlow_rxInv h
    · exact reaUndecodable_rxInv h _

/-- R109: while sending, a due frame always has a value. -/
theorem segTick_total {s : State} (h : Inv s) : ∃ t, segTick s = .next t := by
  unfold segTick
  split
  · exact ⟨_, rfl⟩
  · split <;> exact ⟨_, rfl⟩
  · rename_i hs
    split
    · exact ⟨_, rfl⟩
    · rw [countOverall_eq]
      unfold segTickSend
      dsimp only
      split
      · have hn : s.tx.state ≠ .idle := by simp [hs]
        have h1 := h.tx.offset hn
        have h2 := h.tx.buffer hn
        have h3 := h.legal.1
        have hb : 1 ≤ (bufSlice s.tx s.tx.off (cfBytes s.cfg.cap s.tx)).length ∧
            (bufSlice s.tx s.tx.off (cfBytes s.cfg.cap s.tx)).length ≤ s.cfg.cap - 1 := by
          simp [bufSlice, cfBytes]; omega
        unfold segEmitCf encCF
        rw [if_pos]
        · dsimp only; split <;> exact ⟨_, rfl⟩
        · exact hb
      · exact ⟨_, rfl⟩

/-- The invariants give the buffers' canonical form. -/
theorem Inv.memory_wf {s : State} (h : Inv s) : Memory.wf s := by
  constructor
  · by_cases hs : s.tx.state = .idle
    · rw [h.tx.idle hs]; exact Nat.zero_le _
    · rw [h.tx.buffer hs]; exact (h.tx.length hs).2
  · cases hs : s.rx.state with
    | idle => rw [h.rx.idle hs]; exact Nat.zero_le _
    | awaitCf => exact Nat.le_of_lt (Nat.lt_of_lt_of_le (h.rx.fill hs) (h.rx.length hs).2)

end Sys2Proof.Machine
end

