-- ==== Sys2Proof/Laws/PerInstr.lean ====
section
/-!
SUPPORT. Facts about every instruction as syntax, one lemma a constructor.

`FirstByte`: the first byte an instruction is encoded with matches its own row of the opcode table, and its tail follows.
-/

namespace Sys2Proof.Laws.FirstByte

def Statement (i : Instr) : Prop := ∃ b, encode i = b :: i.tail ∧ (rowOf i).matches b = true

theorem sf (dl : Nibble) (tail : List Byte) : Statement (.sf dl tail) :=
  ⟨_, rfl, by simp only [rowOf]; revert dl; decide⟩

theorem ff (hi : Nibble) (tail : List Byte) : Statement (.ff hi tail) :=
  ⟨_, rfl, by simp only [rowOf]; revert hi; decide⟩

theorem cf (sn : Nibble) (tail : List Byte) : Statement (.cf sn tail) :=
  ⟨_, rfl, by simp only [rowOf]; revert sn; decide⟩

theorem fcCts (tail : List Byte) : Statement (.fcCts tail) := ⟨_, rfl, by simp only [rowOf]; decide⟩

theorem fcWait (tail : List Byte) : Statement (.fcWait tail) := ⟨_, rfl, by simp only [rowOf]; decide⟩

theorem fcOvflw (tail : List Byte) : Statement (.fcOvflw tail) := ⟨_, rfl, by simp only [rowOf]; decide⟩

theorem fcRsvd3 (tail : List Byte) : Statement (.fcRsvd3 tail) := ⟨_, rfl, by simp only [rowOf]; decide⟩

theorem fcRsvd47 (low : BitVec 2) (tail : List Byte) : Statement (.fcRsvd47 low tail) :=
  ⟨_, rfl, by simp only [rowOf]; revert low; decide⟩

theorem fcRsvd815 (low : BitVec 3) (tail : List Byte) : Statement (.fcRsvd815 low tail) :=
  ⟨_, rfl, by simp only [rowOf]; revert low; decide⟩

theorem unsup47 (low : BitVec 6) (tail : List Byte) : Statement (.unsup47 low tail) :=
  ⟨_, rfl, by simp only [rowOf]; revert low; decide⟩

theorem unsup815 (low : BitVec 7) (tail : List Byte) : Statement (.unsup815 low tail) :=
  ⟨_, rfl, by simp only [rowOf]; revert low; decide⟩

end Sys2Proof.Laws.FirstByte
end

