-- ==== Sys2Proof/Tests/Slice0.lean ====
section
/-!
SUPPORT. The model's own tests: each well-formedness check refusing an ill-formed term, a written-out word for every
constructor, one-step tests with results from spec/95_test_vectors.md, and for every obligation with hypotheses a witness
that meets them.
-/

namespace Sys2Proof.Tests

open Sys2Proof Sys2Proof.Machine

/-! ## Helpers: small states. The timeouts are those of 95_test_vectors.md (5 ticks). -/

def cfg5 : Config := { Config.hardware with nBsTicks := 5, nCrTicks := 5 }

/-- Both halves idle. -/
def idleS : State := .powerUp cfg5

/-- `s` offered the events `es`, the link accepting. -/
def offered (s : State) (es : List Event) : State := { s with input := es.map fun e => ⟨e, true⟩ }

/-- `s` offered one event, with the link's answer. -/
def offered1 (s : State) (e : Event) (ok : Bool) : State := { s with input := [⟨e, ok⟩] }

def payload8 : List Byte := [0x32#8, 0x11#8, 0xAA#8, 0x33#8, 0x44#8, 0x88#8, 0x44#8, 0x88#8]

/-- The transmit half of the source's example after its First Frame (95_test_vectors.md S1). -/
def waitTx : TxHalf :=
  { state := .waitFc, buf := payload8, len := 8, off := 6, sn := 1#4, bs := 0, bsRem := 0, st := 0, gap := 0, tmr := 5,
    total := 0 }

/-- The same half sending, `gap` ticks before the next frame, in an unlimited block. -/
def sendTx (gap st : Nat) : TxHalf := { waitTx with state := .sendCf, gap := gap, st := st }

/-- The receive half of the source's example after its First Frame (S1). -/
def awaitRx : RxHalf :=
  { state := .awaitCf, buf := payload8.take 6, len := 8, sn := 1#4, tmr := 5, bsRem := 0 }

def waitS : State := { idleS with tx := waitTx }
def sendS : State := { idleS with tx := sendTx 0 0 }
def awaitS : State := { idleS with rx := awaitRx }

/-- The actions one step emits; nothing if it stops. -/
def acts (s : State) : Option (List Action) := (nextState (step s)).map (emitted s)

/-! ## Well-formedness: an ill-formed term for each check -/

theorem test_cap_too_small : ¬ { cfg5 with cap := 2 }.Legal := by decide
theorem test_cap_too_large : ¬ { cfg5 with cap := 17 }.Legal := by decide
theorem test_nBs_zero : ¬ { cfg5 with nBsTicks := 0 }.Legal := by decide
theorem test_nBs_too_large : ¬ { cfg5 with nBsTicks := 2 ^ 32 }.Legal := by decide
theorem test_nCr_zero : ¬ { cfg5 with nCrTicks := 0 }.Legal := by decide
theorem test_nCr_too_large : ¬ { cfg5 with nCrTicks := 2 ^ 32 }.Legal := by decide
theorem test_tXfer_too_large : ¬ { cfg5 with tXferTicks := 2 ^ 32 }.Legal := by decide
theorem test_rxBufCap_too_large : ¬ { cfg5 with rxBufCap := 4096 }.Legal := by decide
theorem test_legal_bounds : { cfg5 with cap := 3, nBsTicks := 1, nCrTicks := 2 ^ 32 - 1, rxBufCap := 0 }.Legal := by decide
theorem test_frame_too_long : ¬ FrameFits 8 (List.replicate 9 0#8) := by decide
theorem test_payload_too_long : ¬ PayloadFits (List.replicate 4096 0#8) := by
  rw [PayloadFits, List.length_replicate]; decide
theorem test_instruction_too_long : ¬ (Instr.cf 1#4 (List.replicate 8 0#8)).WellFormed 8 := by decide
theorem test_instruction_longest : (Instr.cf 1#4 (List.replicate 7 0#8)).WellFormed 8 := by decide
theorem test_decoder_refuses_long_frame : decodeFrame 8 (List.replicate 9 0#8) = .error .frameTooLong := by decide
theorem test_decoder_refuses_empty_frame : decodeFrame 8 [] = .error .emptyFrame := by decide

/-! ## Decoding: a word for every constructor, bit by bit from 30_encoding.md R61 to R66 and the opcode table -/

theorem test_word_sf : decodeFrame 8 [0b00000111#8, 9#8] = .ok (.sf 7#4 [9#8]) := by decide
theorem test_word_ff : decodeFrame 8 [0b00011010#8, 0b10111100#8] = .ok (.ff 10#4 [0xBC#8]) := by decide
theorem test_word_cf : decodeFrame 8 [0b00101110#8, 9#8] = .ok (.cf 14#4 [9#8]) := by decide
theorem test_word_cts : decodeFrame 8 [0b00110000#8, 8#8, 20#8] = .ok (.fcCts [8#8, 20#8]) := by decide
theorem test_word_wait : decodeFrame 8 [0b00110001#8, 8#8, 20#8] = .ok (.fcWait [8#8, 20#8]) := by decide
theorem test_word_ovflw : decodeFrame 8 [0b00110010#8, 8#8, 20#8] = .ok (.fcOvflw [8#8, 20#8]) := by decide
theorem test_word_rsvd3 : decodeFrame 8 [0b00110011#8, 8#8] = .ok (.fcRsvd3 [8#8]) := by decide
theorem test_word_rsvd47 : decodeFrame 8 [0b00110110#8, 8#8] = .ok (.fcRsvd47 0b10#2 [8#8]) := by decide
theorem test_word_rsvd815 : decodeFrame 8 [0b00111110#8, 8#8] = .ok (.fcRsvd815 0b110#3 [8#8]) := by decide
theorem test_word_unsup47 : decodeFrame 8 [0b01101101#8, 8#8] = .ok (.unsup47 0b101101#6 [8#8]) := by decide
theorem test_word_unsup815 : decodeFrame 8 [0b11011010#8, 8#8] = .ok (.unsup815 0b1011010#7 [8#8]) := by decide

/-- The table's numbering: byte 0 is bits 7..0 of the word, the bytes the word does not reach are zero. -/
theorem test_table_word : decodeTableWord 16 0xBC1A = some (.ff 0xA#4 [0xBC#8, 0#8, 0#8, 0#8, 0#8, 0#8, 0#8]) := by decide
theorem test_table_word_short : decodeTableWord 8 0x31 = some (.fcWait (List.replicate 7 0#8)) := by decide

/-! ## The codec: 95_test_vectors.md V1 to V74 at the edges -/

theorem test_decode_sf_padded : codecDecode 8 [0x02#8, 0x11#8, 0x22#8, 0xCC#8] = .sf [0x11#8, 0x22#8] := by decide  -- V5
theorem test_decode_sf_short : codecDecode 8 [0x03#8, 0xAA#8, 0xBB#8] = .err .malformedFrame := by decide  -- V7
theorem test_decode_ff_at_bound : codecDecode 8 [0x10#8, 0x06#8, 1#8] = .err .malformedFrame := by decide  -- V13
theorem test_decode_ff_over_bound : codecDecode 8 [0x10#8, 0x07#8, 1#8] = .ff 7 [1#8] := by decide  -- V14
theorem test_decode_ff_high_nibble : codecDecode 8 [0x11#8, 0x00#8, 1#8] = .ff 256 [1#8] := by decide  -- V17
theorem test_decode_cf_empty : codecDecode 8 [0x25#8] = .cf 5#4 [] := by decide  -- V23
theorem test_decode_fc_padded : codecDecode 8 [0x30#8, 0xFF#8, 0xF5#8, 0xAA#8] = .fc .cts 0xFF#8 0xF5#8 := by decide  -- V26
theorem test_decode_fc_short : codecDecode 8 [0x30#8, 0x00#8] = .err .malformedFrame := by decide  -- V31
theorem test_decode_status_15 : codecDecode 8 [0x3F#8, 0#8, 0#8] = .err .malformedFrame := by decide  -- V30
theorem test_decode_type_4 : codecDecode 8 [0x40#8] = .err .unsupportedFrameType := by decide  -- V34
theorem test_decode_cap_3 : codecDecode 3 [0x10#8, 0x02#8, 0xAA#8] = .ff 2 [0xAA#8] := by decide  -- V39
theorem test_encSF : encSF 8 [0x11#8, 0x22#8] = some [0x02#8, 0x11#8, 0x22#8] := by decide  -- V46
theorem test_encFF : encFF 8 2748 [0#8, 1#8, 2#8, 3#8, 4#8, 5#8] =
    some [0x1A#8, 0xBC#8, 0#8, 1#8, 2#8, 3#8, 4#8, 5#8] := by decide  -- V52
theorem test_encCF : encCF 8 0#4 [0xFF#8] = some [0x20#8, 0xFF#8] := by decide  -- V55
theorem test_encFC : encFC .ovflw 4#8 0x0A#8 = [0x32#8, 0x04#8, 0x0A#8] := by decide  -- V61
theorem test_stTicks : (stTicks 0x7F#8, stTicks 0x80#8, stTicks 0xF0#8, stTicks 0xF1#8, stTicks 0xF9#8, stTicks 0xFA#8) =
    (1270, 1270, 1270, 1, 9, 1270) := by decide  -- V66 to V73

/-! ## Frame forms, at most two tests each -/

theorem test_sf_idle : nextState (exec (.sf 2#4 [0x11#8, 0x22#8, 0xCC#8]) idleS) =
    some { idleS with out := [.rxPayload [0x11#8, 0x22#8]] } := by decide  -- V105
theorem test_sf_during_reception : nextState (exec (.sf 2#4 [0xAA#8, 0xBB#8]) awaitS) =
    some { idleS with out := [.rxError .protocolViolation] } := by decide  -- V112
theorem test_ff_idle : nextState (exec (.ff 0#4 (0x08#8 :: payload8.take 6)) idleS) =
    some { awaitS with out := [.linkTx 0x7E0#32 [0x30#8, 0#8, 0#8]] } := by decide  -- S1
theorem test_ff_too_long : nextState (exec (.ff 0#4 [0x65#8, 1#8]) { idleS with cfg := { cfg5 with rxBufCap := 100 } }) =
    some { idleS with cfg := { cfg5 with rxBufCap := 100 }, out := [.linkTx 0x7E0#32 [0x32#8, 0#8, 0#8]] } := by decide  -- V115
theorem test_cf_completes : nextState (exec (.cf 1#4 [0x44#8, 0x88#8, 0xCC#8]) awaitS) =
    some { idleS with out := [.rxPayload payload8] } := by decide  -- S1, padded as in V106
theorem test_cf_empty : nextState (exec (.cf 1#4 []) { awaitS with rx := { awaitRx with tmr := 3 } }) =
    some { awaitS with rx := { awaitRx with sn := 2#4 } } := by decide  -- V108
theorem test_cts : nextState (exec (.fcCts [2#8, 0xF3#8]) waitS) =
    some { waitS with tx := { waitTx with state := .sendCf, bs := 2, bsRem := 2, st := 3 } } := by decide  -- R104, V96
theorem test_cts_during_reception : nextState (exec (.fcCts [0#8, 0#8]) awaitS) =
    some { idleS with out := [.rxError .protocolViolation] } := by decide  -- V112
theorem test_wait : nextState (exec (.fcWait [9#8, 9#8]) { waitS with tx := { waitTx with tmr := 3 } }) = some waitS := by
  decide  -- V95
theorem test_wait_idle : nextState (exec (.fcWait [0#8, 0#8]) idleS) = some idleS := by decide  -- V113
theorem test_ovflw : nextState (exec (.fcOvflw [0#8, 0#8]) waitS) =
    some { idleS with out := [.txDone (.err .peerOverflow)] } := by decide  -- V95
theorem test_ovflw_short : nextState (exec (.fcOvflw [0#8]) waitS) =
    some { waitS with out := [.rxError .malformedFrame] } := by decide  -- R84, R116
theorem test_rsvd3 : nextState (exec (.fcRsvd3 [0#8, 0#8]) awaitS) =
    some { idleS with out := [.rxError .protocolViolation] } := by decide  -- V112
theorem test_rsvd47 : nextState (exec (.fcRsvd47 1#2 [0#8, 0#8]) waitS) =
    some { waitS with out := [.rxError .malformedFrame] } := by decide  -- V104
theorem test_rsvd815 : nextState (exec (.fcRsvd815 7#3 [0#8, 0#8]) idleS) =
    some { idleS with out := [.rxError .malformedFrame] } := by decide  -- V113
theorem test_unsup47 : nextState (exec (.unsup47 5#6 [0#8]) idleS) =
    some { idleS with out := [.rxError .unsupportedFrameType] } := by decide  -- V113
theorem test_unsup815 : nextState (exec (.unsup815 127#7 []) awaitS) =
    some { idleS with out := [.rxError .protocolViolation] } := by decide  -- R131

/-! ## Events -/

theorem test_send_long : nextState (step (offered idleS [.send payload8])) =
    some { waitS with out := [.linkTx 0x7E0#32 (0x10#8 :: 0x08#8 :: payload8.take 6)] } := by decide  -- S1
theorem test_send_single : acts (offered1 idleS (.send [1#8]) false) =
    some [.linkTx 0x7E0#32 [0x01#8, 1#8], .txDone (.err .linkError)] := by decide  -- R101
theorem test_send_busy : acts (offered waitS [.send [1#8]]) = some [.sendRefused] := by decide  -- V94
theorem test_tick_sends : nextState (step (offered sendS [.tick])) =
    some { idleS with out := [.linkTx 0x7E0#32 [0x21#8, 0x44#8, 0x88#8], .txDone .ok] } := by decide  -- S1
theorem test_tick_gap : nextState (step (offered { idleS with tx := sendTx 3 3 } [.tick])) =
    some { idleS with tx := sendTx 2 3 } := by decide  -- V96
theorem test_tick_both_time_out : acts (offered { idleS with tx := { waitTx with tmr := 1 }, rx := { awaitRx with tmr := 1 } }
    [.tick]) = some [.txDone (.err .flowControlTimeout), .rxError .reassemblyTimeout] := by decide  -- V121
theorem test_abort_rx : nextState (step (offered awaitS [.abortRx])) = some { idleS with out := [.rxAborted] } := by
  decide  -- V117
theorem test_reset : nextState (step (offered { waitS with rx := awaitRx } [.reset])) = some idleS := by decide  -- V124
theorem test_other_address : nextState (step (offered awaitS [.linkRx 0x7E9#32 [0x21#8, 1#8]])) = some awaitS := by
  decide  -- V118
theorem test_empty_frame : acts (offered idleS [.linkRx 0x7E8#32 []]) = some [.rxError .malformedFrame] := by
  decide  -- V113
theorem test_no_event : nextState (step idleS) = some idleS := by decide  -- log entry 4
theorem test_placed_word_runs : acts (State.reset.withFetchWord 8 0xFF) = some [.rxError .unsupportedFrameType] := by
  decide  -- log entry 17

/-! ## Witnesses: states that meet the invariants -/

theorem cfg5_legal : cfg5.Legal := by decide

theorem idle_inv : Inv idleS := ⟨cfg5_legal, .ofReset _, .ofReset _⟩

theorem waitTx_inv : TxInv cfg5 waitTx := by
  constructor <;> simp [waitTx, cfg5, Config.hardware, payload8, maxPayload]

theorem sendTx_inv (gap st : Nat) (h : gap ≤ st ∧ st ≤ 1270) : TxInv cfg5 (sendTx gap st) := by
  constructor <;> simp [sendTx, waitTx, cfg5, Config.hardware, payload8, maxPayload]; omega

theorem awaitRx_inv : RxInv cfg5 awaitRx := by
  constructor <;> simp [awaitRx, cfg5, Config.hardware, payload8]

theorem wait_inv (es : List Stimulus) : Inv { waitS with input := es } := ⟨cfg5_legal, waitTx_inv, .ofReset _⟩
theorem send_inv (es : List Stimulus) : Inv { sendS with input := es } :=
  ⟨cfg5_legal, sendTx_inv 0 0 (by decide), .ofReset _⟩
theorem await_inv (es : List Stimulus) : Inv { awaitS with input := es } := ⟨cfg5_legal, .ofReset _, awaitRx_inv⟩

/-- A transmit half in the middle of a block of 2, with the overall timer on. -/
def blockTx (bsRem total : Nat) : TxHalf :=
  { waitTx with state := .sendCf, buf := payload8 ++ payload8, len := 16, bs := 2, bsRem := bsRem, total := total }

theorem blockTx_inv (bsRem total : Nat) (h : 1 ≤ bsRem ∧ bsRem ≤ 2) (ht : 1 ≤ total ∧ total ≤ 6) :
    TxInv { cfg5 with tXferTicks := 6 } (blockTx bsRem total) := by
  constructor <;> simp [blockTx, waitTx, cfg5, Config.hardware, payload8, maxPayload] <;> omega

def xferS (tx : TxHalf) (es : List Stimulus) : State :=
  { idleS with cfg := { cfg5 with tXferTicks := 6 }, tx := tx, input := es }

theorem block_inv (bsRem total : Nat) (h : 1 ≤ bsRem ∧ bsRem ≤ 2) (ht : 1 ≤ total ∧ total ≤ 6) (es : List Stimulus) :
    Inv (xferS (blockTx bsRem total) es) := ⟨show { cfg5 with tXferTicks := 6 }.Legal by decide, blockTx_inv _ _ h ht, .ofReset _⟩

/-! ## Witnesses: one for every obligation with hypotheses, one conjunct a clause, at the boundaries of its ranges -/

theorem witness_DecodingAnEncodedInstructionGivesItBack :
    (Instr.unsup815 127#7 (List.replicate 7 0xFF#8)).WellFormed 8 ∧ (Instr.fcCts []).WellFormed 1 := by decide

theorem witness_EncodingADecodedFrameGivesItBack :
    decodeFrame 8 (0xFF#8 :: List.replicate 7 1#8) = .ok (.unsup815 127#7 (List.replicate 7 1#8)) := by decide

/-- V7 and V4, V11, V13, V14, V22, V31, V29, V24, V27, V28, V34; each verdict is the one its clause gives. -/
theorem witness_DecodeVerdictsFollowTheFrameTables :
    ((0x02#8).toNat / 16 = 0 ∧ [0x11#8].length < (0x02#8).toNat % 16) ∧
    ((0x02#8).toNat / 16 = 0 ∧ (0x02#8).toNat % 16 ≤ [0x11#8, 0x22#8].length) ∧
    ((0x10#8).toNat / 16 = 1) ∧
    ((0x10#8).toNat % 16 * 256 + (0x06#8).toNat ≤ 8 - 2) ∧
    (8 - 2 < (0x10#8).toNat % 16 * 256 + (0x07#8).toNat) ∧
    ((0x20#8).toNat / 16 = 2 ∧ (0x2F#8).toNat / 16 = 2) ∧
    ((0x30#8).toNat / 16 = 3 ∧ [0x00#8].length < 2) ∧
    ((0x33#8).toNat / 16 = 3 ∧ 2 < (0x33#8).toNat % 16 ∧ 2 < (0x3F#8).toNat % 16) ∧
    ((0x30#8).toNat % 16 = 0 ∧ (0x31#8).toNat % 16 = 1 ∧ (0x32#8).toNat / 16 = 3 ∧ (0x32#8).toNat % 16 = 2) ∧
    (4 ≤ (0x40#8).toNat / 16 ∧ 4 ≤ (0xFF#8).toNat / 16) := by decide

theorem witness_FormattersWriteTheFrameTables :
    (([] : List Byte).length ≤ 8 - 1 ∧ (List.replicate 7 0#8).length ≤ 8 - 1) ∧ 8 - 1 < payload8.length ∧
    (8 - 2 < 7 ∧ (payload8.take 6).length = 8 - 2) ∧ (8 - 2 < 4095 ∧ 4095 ≤ 4095) ∧
    (6 ≤ 8 - 2 ∧ 4095 < 4096 ∧ (payload8.take 5).length ≠ 8 - 2) ∧
    (1 ≤ (payload8.take 1).length ∧ (payload8.take 7).length ≤ 8 - 1) ∧
    ((payload8.take 0).length = 0 ∧ 8 - 1 < payload8.length) := by decide

/-- V47, V51, V54, V57, and the smallest and largest `CAP`. -/
theorem witness_DecodeInvertsTheFormatters :
    encSF 8 (payload8.take 7) = some (0x07#8 :: payload8.take 7) ∧
    encFF 8 4095 (payload8.take 6) = some (0x1F#8 :: 0xFF#8 :: payload8.take 6) ∧
    encCF 8 15#4 (payload8.take 7) = some (0x2F#8 :: payload8.take 7) ∧
    encSF 3 [0xAA#8, 0xBB#8] = some [0x02#8, 0xAA#8, 0xBB#8] ∧
    encSF 16 (List.replicate 15 1#8) = some (0x0F#8 :: List.replicate 15 1#8) := by decide

theorem witness_SeparationBytesConvertToTicks :
    (0x7F#8).toNat ≤ 0x7F ∧ (0xF1 ≤ (0xF1#8).toNat ∧ (0xF9#8).toNat ≤ 0xF9) ∧
    (0x80 ≤ (0x80#8).toNat ∧ (0xF0#8).toNat ≤ 0xF0) ∧ 0xFA ≤ (0xFA#8).toNat := by decide

theorem witness_CappedAppendKeepsWithinTheDeclaredLength :
    5 < awaitRx.buf.length ∧ awaitRx.buf.length ≤ awaitRx.len ∧ { awaitRx with len := 6 }.buf.length ≤ 6 := by decide

theorem witness_StepRunsTheDecodedInstruction :
    let s := offered awaitS [.linkRx 0x7E8#32 [0x21#8, 0x44#8, 0x88#8]]
    s.cfg.Legal ∧ s.input = ⟨.linkRx s.cfg.rxAddr [0x21#8, 0x44#8, 0x88#8], true⟩ :: [] ∧
      decodeFrame s.cfg.cap [0x21#8, 0x44#8, 0x88#8] = .ok (.cf 1#4 [0x44#8, 0x88#8]) := by decide

theorem witness_PlacedWordIsTheNextInstruction :
    State.reset.cfg.Legal ∧ State.reset.cfg.cap = 8 ∧ decodeTableWord 8 0x2F = some (.cf 15#4 (List.replicate 7 0#8)) := by
  decide

theorem witness_ArrivingFramesAreRoutedByDecodeVerdict :
    let s := offered idleS [.linkRx 0x7E8#32 (0x2F#8 :: payload8.take 7)]
    s.cfg.Legal ∧ s.input = ⟨.linkRx 0x7E8#32 (0x2F#8 :: payload8.take 7), true⟩ :: [] ∧
      (0x2F#8 :: payload8.take 7).length ≤ s.cfg.cap ∧ (0x7E8#32 = s.cfg.rxAddr) ∧ (0x7E9#32 ≠ s.cfg.rxAddr) := by decide

/-- A Flow Control frame that comes while the half sends is not for the Segmenter, nor one from another address. -/
theorem witness_OtherFramesNeverChangeTheTransmitHalf :
    (offered sendS [.linkRx 0x7E8#32 [0x30#8, 0#8, 0#8]]).tx.state ≠ .waitFc ∧
      sendS.cfg.Legal ∧ [0x30#8, 0#8, 0#8].length ≤ sendS.cfg.cap ∧ 0x7E9#32 ≠ waitS.cfg.rxAddr := by decide

theorem witness_ExcludedInputsAreRefusedByName :
    (¬ { idleS with cfg := { cfg5 with cap := 2 } }.cfg.Legal) ∧
    (idleS.cfg.Legal ∧ 4095 < (List.replicate 4096 0#8).length) ∧
    (idleS.cfg.cap < (0#8 :: payload8).length) := by
  rw [List.length_replicate]; decide

theorem witness_SingleFrameDeliversItsPayloadWhenIdle :
    (0#4).toNat ≤ ([] : List Byte).length ∧ (7#4).toNat ≤ (payload8.take 7).length ∧ waitS.rx.state = .idle := by decide

/-- An idle half with a buffer of 100 bytes, the handshake on or off, the link accepting or not. -/
def ffS (fc ok : Bool) : State := { idleS with cfg := { cfg5 with fcEn := fc, rxBufCap := 100 }, linkOk := ok }

/-- `L = 7 = CAP - 1` (V107) and `L = RX_BUF_CAP = 100` (V115), with each link answer and without the handshake. -/
theorem witness_FirstFrameStartsAReception :
    (∀ s ∈ [ffS true true, ffS true false, ffS false true], ∀ len ∈ [7, 100],
      len = (0#4).toNat * 256 + (BitVec.ofNat 8 len).toNat ∧
      (Instr.ff 0#4 (BitVec.ofNat 8 len :: payload8.take 6)).WellFormed s.cfg.cap ∧
      s.cfg.cap - 2 < len ∧ len ≤ s.cfg.rxBufCap ∧ s.rx.state = .idle) ∧
    ((ffS true true).cfg.fcEn = true ∧ (ffS true true).linkOk = true) ∧
    ((ffS true false).cfg.fcEn = true ∧ (ffS true false).linkOk = false) ∧ (ffS false true).cfg.fcEn = false := by decide

/-- `L = RX_BUF_CAP + 1` (V115). -/
theorem witness_FirstFrameTooLongIsAnsweredWithOverflow :
    (∀ s ∈ [ffS true true, ffS true false, ffS false true],
      s.cfg.cap - 2 < (0#4).toNat * 256 + (101#8).toNat ∧ s.cfg.rxBufCap < (0#4).toNat * 256 + (101#8).toNat ∧
      s.rx.state = .idle) ∧
    ((ffS true true).cfg.fcEn = true ∧ (ffS true true).linkOk = true) ∧
    ((ffS true false).cfg.fcEn = true ∧ (ffS true false).linkOk = false) ∧ (ffS false true).cfg.fcEn = false := by decide

theorem witness_StrayFramesAreDroppedWhenIdle : sendS.rx.state = .idle ∧ sendS.tx.state ≠ .waitFc := by decide

theorem witness_ExpectedConsecutiveFrameCompletes :
    awaitS.rx.state = .awaitCf ∧ awaitS.rx.buf.length ≤ awaitS.rx.len ∧
      awaitS.rx.len ≤ awaitS.rx.buf.length + [0x44#8, 0x88#8].length := by decide

/-- A reception with blocks of `bs`, `bsRem` frames left in this one. -/
def rxBlockS (fc : Bool) (bs : Byte) (bsRem : Nat) (ok : Bool) : State :=
  { awaitS with cfg := { cfg5 with fcEn := fc, rxBs := bs }, linkOk := ok, rx := { awaitRx with bsRem := bsRem } }

/-- One byte short of the length: without the handshake, unlimited, inside a block, at its end with each link answer. -/
theorem witness_ExpectedConsecutiveFrameContinues :
    (∀ s ∈ [rxBlockS false 2#8 2 true, rxBlockS true 0#8 0 true, rxBlockS true 2#8 2 true, rxBlockS true 2#8 1 true,
        rxBlockS true 2#8 1 false],
      s.rx.state = .awaitCf ∧ s.rx.buf.length + [0x44#8].length < s.rx.len) ∧
    ((rxBlockS false 2#8 2 true).cfg.fcEn = false ∧ (rxBlockS true 0#8 0 true).cfg.rxBs = 0#8) ∧
    (∀ s ∈ [rxBlockS true 2#8 2 true, rxBlockS true 2#8 1 true, rxBlockS true 2#8 1 false],
      s.cfg.fcEn = true ∧ s.cfg.rxBs ≠ 0#8) ∧
    1 < (rxBlockS true 2#8 2 true).rx.bsRem ∧
    ((rxBlockS true 2#8 1 true).rx.bsRem = 1 ∧ (rxBlockS true 2#8 1 true).linkOk = true) ∧
    ((rxBlockS true 2#8 1 false).rx.bsRem = 1 ∧ (rxBlockS true 2#8 1 false).linkOk = false) := by decide

theorem witness_WrongSequenceNumberAbortsTheReception : awaitS.rx.state = .awaitCf ∧ 0#4 ≠ awaitS.rx.sn := by decide

theorem witness_OtherFrameTypesAbortTheReception :
    awaitS.rx.state = .awaitCf ∧ (2#4).toNat ≤ [0xAA#8, 0xBB#8].length ∧
      awaitS.cfg.cap - 2 < (0#4).toNat * 256 + (7#8).toNat ∧ awaitS.tx.state ≠ .waitFc := by decide

theorem witness_RejectedFramesReportOrAbort :
    (idleS.rx.state = .idle ∧ codecDecode idleS.cfg.cap (encode (.ff 0#4 [6#8])) = .err .malformedFrame) ∧
    codecDecode idleS.cfg.cap (encode (.unsup47 0#6 [])) = .err .unsupportedFrameType ∧
    (awaitS.rx.state = .awaitCf ∧ codecDecode awaitS.cfg.cap (encode (.fcCts [0#8])) = .err .malformedFrame) := by decide

theorem witness_RejectedRowsCompleteWithTheirError :
    [0x11#8].length < (2#4).toNat ∧ (0#4).toNat * 256 + (6#8).toNat ≤ idleS.cfg.cap - 2 ∧ [0#8].length < 2 := by decide

theorem witness_ContinueToSendOpensABlock : waitS.tx.state = .waitFc := by decide
theorem witness_WaitRestartsTheFlowControlTimer : { waitS with tx := { waitTx with tmr := 1 } }.tx.state = .waitFc := by decide
theorem witness_OverflowEndsTheSend : { waitS with rx := awaitRx }.tx.state = .waitFc := by decide

theorem witness_DataAndRejectedFormsKeepTheTransmitSide :
    (∀ tail, Instr.cf 1#4 [0x44#8] ≠ .fcCts tail ∧ Instr.cf 1#4 [0x44#8] ≠ .fcWait tail ∧
      Instr.cf 1#4 [0x44#8] ≠ .fcOvflw tail) ∧
    exec (.cf 1#4 [0x44#8]) { waitS with rx := awaitRx } = .next { waitS with rx := { awaitRx with
      buf := payload8.take 7, sn := 2#4 } } := ⟨by simp, rfl⟩

theorem witness_FlowControlFormsKeepTheRest :
    exec (.fcWait [0#8, 0#8]) waitS = .next waitS ∧ (waitS.tx.state = .waitFc ∧ 2 ≤ [0#8, 0#8].length) ∧
    exec (.fcCts []) waitS = .next { waitS with out := [.rxError .malformedFrame] } ∧
    exec (.fcOvflw [0#8, 0#8]) sendS = .next sendS ∧ sendS.tx.state ≠ .waitFc := ⟨rfl, by decide, rfl, rfl, by decide⟩

theorem witness_ConsecutiveFrameStoresOnlyItsBytes :
    exec (.cf awaitS.rx.sn [0x44#8]) awaitS = .next { awaitS with rx := { awaitRx with buf := payload8.take 7, sn := 2#4 } } ∧
    awaitS.rx.state = .awaitCf ∧ appendRoom awaitS.rx [0x44#8] = 1 := ⟨rfl, by decide, by decide⟩

theorem witness_SendOfAShortPayloadIsOneSingleFrame :
    idleS.cfg.Legal ∧ (offered idleS [.send (payload8.take 7)]).input = ⟨.send (payload8.take 7), true⟩ :: [] ∧
      idleS.tx.state = .idle ∧ (payload8.take 7).length ≤ idleS.cfg.cap - 1 := by decide

/-- `len(p) = CAP`, each link answer, with the handshake and without. -/
theorem witness_SendOfALongPayloadStartsWithAFirstFrame :
    (∀ s ∈ [idleS, ffS false true], ∀ ok ∈ [true, false], s.cfg.Legal ∧
      (offered1 s (.send payload8) ok).input = ⟨.send payload8, ok⟩ :: [] ∧ s.tx.state = .idle ∧
      s.cfg.cap ≤ payload8.length ∧ payload8.length ≤ 4095) ∧
    idleS.cfg.fcEn = true ∧ (ffS false true).cfg.fcEn = false := by decide

theorem witness_SendWhileBusyIsRefused :
    sendS.cfg.Legal ∧ (offered sendS [.send payload8]).input = ⟨.send payload8, true⟩ :: [] ∧ sendS.tx.state ≠ .idle := by
  decide

theorem witness_AbortsEndTheirOwnHalfOnly :
    (offered sendS [.abortTx]).input = ⟨.abortTx, true⟩ :: [] ∧ sendS.cfg.Legal ∧ sendS.tx.state ≠ .idle ∧
    sendS.rx.state = .idle ∧ (offered awaitS [.abortRx]).input = ⟨.abortRx, true⟩ :: [] ∧ awaitS.cfg.Legal ∧
    awaitS.rx.state = .awaitCf ∧ awaitS.tx.state = .idle := by decide

theorem witness_ResetEventClearsEveryRegisterInSilence :
    sendS.cfg.Legal ∧ (offered1 sendS .reset false).input = ⟨.reset, false⟩ :: [] := by decide

/-- The last tick of the wait and the one before it, the overall timer off and on. -/
theorem witness_TickCountsDownTheFlowControlWait :
    (∀ s ∈ [{ waitS with tx := { waitTx with tmr := 1 } }, { waitS with tx := { waitTx with tmr := 2 } },
        xferS { waitTx with tmr := 1, total := 2 } [], xferS { waitTx with tmr := 2, total := 2 } []],
      s.cfg.Legal ∧ (offered s [.tick]).input = ⟨.tick, true⟩ :: [] ∧ s.tx.state = .waitFc ∧
      (s.cfg.tXferTicks = 0 ∨ 1 < s.tx.total) ∧ (s.tx.tmr = 1 ∨ 1 < s.tx.tmr)) := by decide

theorem witness_OverallTimerEndsTheSend :
    (xferS (blockTx 2 1) [tickOk]).cfg.Legal ∧ (xferS (blockTx 2 1) [tickOk]).input = ⟨.tick, true⟩ :: [] ∧
    (blockTx 2 1).state ≠ .idle ∧ 0 < (xferS (blockTx 2 1) []).cfg.tXferTicks ∧ (blockTx 2 1).total = 1 ∧
    1 < (blockTx 2 2).total ∧ waitS.cfg.tXferTicks = 0 ∧
    ((nextState (step (xferS (blockTx 2 2) [tickOk]))).map fun t => t.tx.state) = some .sendCf := by decide

theorem witness_TickEmitsTheDueConsecutiveFrame :
    Inv (xferS (blockTx 2 2) [tickOk]) ∧ (xferS (blockTx 2 2) [tickOk]).input = ⟨.tick, true⟩ :: [] ∧
    (blockTx 2 2).state = .sendCf ∧ 1 < (blockTx 2 2).total ∧ (blockTx 2 2).gap ≤ 1 ∧
    Inv { idleS with tx := sendTx 2 2, input := [tickOk] } ∧ 1 < (sendTx 2 2).gap ∧ cfg5.tXferTicks = 0 :=
  ⟨block_inv _ _ (by decide) (by decide) _, by decide, by decide, by decide, by decide,
    ⟨cfg5_legal, sendTx_inv 2 2 (by decide), .ofReset _⟩, by decide, by decide⟩

/-- The last frame; an unlimited block, the last frame of a block, and a frame inside it. -/
theorem witness_AcceptedConsecutiveFrameMovesTheSendOn :
    (Inv { sendS with input := [tickOk] } ∧ sendTx 0 0 = sendS.tx ∧ 6 + min 7 (8 - 6) = sendS.tx.len) ∧
    (Inv { idleS with tx := { blockTx 0 0 with bs := 0 }, input := [tickOk] } ∧ 6 + min 7 (16 - 6) ≠ (blockTx 0 0).len) ∧
    (Inv (xferS (blockTx 1 2) [tickOk]) ∧ (blockTx 1 2).bs ≠ 0 ∧ (blockTx 1 2).bsRem = 1) ∧
    (Inv (xferS (blockTx 2 6) [tickOk]) ∧ 1 < (blockTx 2 6).bsRem ∧ 1 < (blockTx 2 6).total) := by
  refine ⟨⟨send_inv _, rfl, by decide⟩, ⟨⟨cfg5_legal, ?_, .ofReset _⟩, by decide⟩,
    ⟨block_inv _ _ (by decide) (by decide) _, by decide, by decide⟩, block_inv _ _ (by decide) (by decide) _, by decide⟩
  constructor <;> simp [blockTx, waitTx, cfg5, idleS, State.powerUp, Config.hardware, payload8, maxPayload]

theorem witness_TickCountsDownTheConsecutiveFrameWait :
    let s (n : Nat) : State := { awaitS with rx := { awaitRx with tmr := n } }
    (s 1).cfg.Legal ∧ (offered (s 1) [.tick]).input = ⟨.tick, true⟩ :: [] ∧ (s 1).rx.state = .awaitCf ∧
    segTick (s 1) = .next (s 1) ∧ (s 1).rx.tmr = 1 ∧ (s 2).cfg.Legal ∧ (s 2).rx.state = .awaitCf ∧
    segTick (s 2) = .next (s 2) ∧ 1 < (s 2).rx.tmr :=
  ⟨cfg5_legal, by decide, by decide, rfl, by decide, cfg5_legal, by decide, rfl, by decide⟩

theorem witness_QuiescentStateIsTheResetStateAndTickKeepsIt :
    Inv idleS ∧ quiescent idleS = true ∧ (offered idleS [.tick]).input = ⟨.tick, true⟩ :: [] :=
  ⟨idle_inv, by decide, by decide⟩

theorem witness_EveryStepKeepsTheInvariants :
    Inv { waitS with input := [tickOk] } ∧ step { waitS with input := [tickOk] } = .next { waitS with tx := { waitTx with tmr := 4 } } :=
  ⟨wait_inv _, rfl⟩

theorem witness_AdmittedEventsNeverStopTheMachine :
    Inv { waitS with input := [tickOk, arrives cfg5 payload8] } ∧
      ∀ x ∈ [tickOk, arrives cfg5 payload8], x.event.Admitted cfg5.cap := by
  refine ⟨wait_inv _, ?_⟩
  intro x hx
  rcases List.mem_cons.1 hx with rfl | hx
  · trivial
  · rw [List.mem_singleton.1 hx]; exact (by decide : payload8.length ≤ 8)

theorem witness_StepTakesOneEventAndKeepsTheConfiguration :
    step { waitS with input := [tickOk] } = .next { waitS with tx := { waitTx with tmr := 4 } } ∧
      idleS.input = [] ∧ step idleS = .next idleS := ⟨rfl, rfl, rfl⟩

/-- A step that emits a frame and an answer, one that reports an error, one that delivers a payload. -/
theorem witness_OutputsAreThoseThePortsAllow :
    (Inv { sendS with input := [tickOk] } ∧ step { sendS with input := [tickOk] } = .next { idleS with
      out := [.linkTx 0x7E0#32 [0x21#8, 0x44#8, 0x88#8], .txDone .ok] }) ∧
    (Inv { waitS with input := [arrives cfg5 [0x32#8, 0#8, 0#8]] } ∧
      step { waitS with input := [arrives cfg5 [0x32#8, 0#8, 0#8]] } = .next { idleS with
        out := [.txDone (.err .peerOverflow)] }) ∧
    (Inv { awaitS with input := [arrives cfg5 [0x20#8]] } ∧ step { awaitS with input := [arrives cfg5 [0x20#8]] } =
      .next { idleS with out := [.rxError .sequenceError] }) ∧
    (Inv { awaitS with input := [arrives cfg5 [0x21#8, 0x44#8, 0x88#8]] } ∧
      step { awaitS with input := [arrives cfg5 [0x21#8, 0x44#8, 0x88#8]] } = .next { idleS with out := [.rxPayload payload8] }) :=
  ⟨⟨send_inv _, rfl⟩, ⟨wait_inv _, rfl⟩, ⟨await_inv _, rfl⟩, await_inv _, rfl⟩

theorem witness_EveryAcceptedSendIsAnsweredOnce :
    { sendS with input := [tickOk] }.input = tickOk :: [] ∧ tickOk.event ≠ .reset ∧
      step { sendS with input := [tickOk] } = .next { idleS with
        out := [.linkTx 0x7E0#32 [0x21#8, 0x44#8, 0x88#8], .txDone .ok] } := ⟨rfl, by decide, rfl⟩

theorem witness_EveryReceptionIsReportedOnce :
    (step { awaitS with input := [arrives cfg5 [0x20#8]] } = .next { idleS with out := [.rxError .sequenceError] } ∧
      rxBusy awaitS = true) ∧
    (step { idleS with input := [arrives cfg5 [0x00#8]] } = .next { idleS with out := [.rxPayload []] } ∧
      rxBusy idleS = false) ∧ (arrives cfg5 [0x20#8]).event ≠ .reset := ⟨⟨rfl, by decide⟩, ⟨rfl, by decide⟩, by decide⟩

/-- The source's First Frame arriving (S1). -/
def ffArrives : Stimulus := arrives cfg5 (0x10#8 :: 0x08#8 :: payload8.take 6)

/-- A due frame with and without a reception in progress; a First Frame with the waiting half at two timer values. -/
theorem witness_HalvesAreIndependent :
    (step { sendS with input := [tickOk] } = .next { idleS with
        out := [.linkTx 0x7E0#32 [0x21#8, 0x44#8, 0x88#8], .txDone .ok] } ∧
      step { sendS with input := [tickOk], rx := awaitRx } = .next { idleS with
        rx := { awaitRx with tmr := 4 }, out := [.linkTx 0x7E0#32 [0x21#8, 0x44#8, 0x88#8], .txDone .ok] } ∧
      ∀ a d ok rest, ({ sendS with input := [tickOk] } : State).input ≠ ⟨.linkRx a d, ok⟩ :: rest) ∧
    (step { waitS with input := [ffArrives] } = .next { waitS with
        rx := awaitRx, out := [.linkTx 0x7E0#32 [0x30#8, 0#8, 0#8]] } ∧
      step { waitS with input := [ffArrives], tx := { waitTx with tmr := 1 } } = .next { waitS with
        tx := { waitTx with tmr := 1 }, rx := awaitRx, out := [.linkTx 0x7E0#32 [0x30#8, 0#8, 0#8]] } ∧
      { waitTx with tmr := 1 }.state = waitS.tx.state) := ⟨⟨rfl, rfl, by simp [tickOk]⟩, rfl, rfl, rfl⟩

/-- A First Frame answered with ContinueToSend, one too long answered with Overflow, a ContinueToSend that ends the wait. -/
theorem witness_NoConsecutiveFrameLeavesWhileWaiting :
    let small := { waitS with cfg := { cfg5 with rxBufCap := 7 } }
    waitS.tx.state = .waitFc ∧
      step { waitS with input := [ffArrives] } = .next { waitS with
        rx := awaitRx, out := [.linkTx 0x7E0#32 [0x30#8, 0#8, 0#8]] } ∧
      step { small with input := [ffArrives] } = .next { small with out := [.linkTx 0x7E0#32 [0x32#8, 0#8, 0#8]] } ∧
      step { waitS with input := [arrives cfg5 [0x30#8, 0#8, 0#8]] } = .next sendS :=
  ⟨by decide, rfl, rfl, rfl⟩

theorem witness_WithoutTheHandshakeNoFlowControlIsUsed :
    let s := offered { idleS with cfg := { cfg5 with fcEn := false } } [.send payload8]
    Inv s ∧ s.cfg.fcEn = false ∧ step s = .next { s with
      tx := { sendTx 0 0 with tmr := 0 }
      input := [], out := [.linkTx 0x7E0#32 (0x10#8 :: 0x08#8 :: payload8.take 6)] } :=
  ⟨⟨by decide, .ofReset _, .ofReset _⟩, rfl, rfl⟩

theorem witness_UnansweredSendTimesOutOnTheLastTick :
    let s := { waitS with input := List.replicate 5 tickOk }
    Inv s ∧ s.tx.state = .waitFc ∧ s.rx.state = .idle ∧ s.cfg.tXferTicks = 0 ∧
      s.input = List.replicate s.tx.tmr tickOk ++ [] ∧ 0 < s.tx.tmr :=
  ⟨wait_inv _, by decide, by decide, by decide, by decide, by decide⟩

theorem witness_UnfedReceptionTimesOutOnTheLastTick :
    let s := { awaitS with input := List.replicate 5 tickOk }
    Inv s ∧ s.rx.state = .awaitCf ∧ s.tx.state = .idle ∧ s.input = List.replicate s.rx.tmr tickOk ++ [] ∧ 0 < s.rx.tmr :=
  ⟨await_inv _, by decide, by decide, by decide, by decide⟩

theorem witness_WaitFramesHoldTheSendForever :
    let s := { waitS with input := (List.replicate 2 [arrives cfg5 [0x31#8, 0#8, 0#8], tickOk]).flatten }
    Inv s ∧ s.tx.state = .waitFc ∧ s.rx.state = .idle ∧ s.cfg.tXferTicks = 0 ∧ 2 ≤ s.cfg.nBsTicks ∧
      s.input = (List.replicate 2 [arrives s.cfg [0x31#8, 0#8, 0#8], tickOk]).flatten ++ [] :=
  ⟨wait_inv _, by decide, by decide, by decide, by decide, by decide⟩

/-- Two Consecutive Frames three ticks apart: the clause on time at its first tick, and on each side of the gap. -/
theorem witness_CompletedSendEmitsItsFramesInOrder :
    let p := payload8 ++ payload8
    let s := { idleS with input := sendScript cfg5 p 0xF3#8 }
    Inv s ∧ s.tx.state = .idle ∧ s.rx.state = .idle ∧ s.cfg.fcEn = true ∧ s.cfg.tXferTicks = 0 ∧ p.length ≤ 4095 ∧
      s.input = sendScript s.cfg p 0xF3#8 ++ [] ∧ s.cfg.cap ≤ p.length ∧
      ∀ j ∈ [0, 1, 3], j < 1 + (cfCount s.cfg.cap p.length - 1) * max (stTicks 0xF3#8) 1 :=
  ⟨⟨cfg5_legal, .ofReset _, .ofReset _⟩, by decide, by decide, by decide, by decide, by decide, by decide, by decide,
    by decide⟩

theorem witness_ReceivedFramesDeliverThePayload :
    let s := { idleS with input := (transferFrames 8 payload8).map (arrives cfg5) }
    Inv s ∧ s.rx.state = .idle ∧ payload8.length ≤ s.cfg.rxBufCap ∧
      s.input = (transferFrames s.cfg.cap payload8).map (arrives s.cfg) ++ [] :=
  ⟨⟨cfg5_legal, .ofReset _, .ofReset _⟩, by decide, by decide, by decide⟩

theorem witness_PayloadsSurviveTheRoundTrip :
    let a := { idleS with input := sendScript cfg5 payload8 0#8 }
    Inv a ∧ Inv idleS ∧ a.tx.state = .idle ∧ a.rx.state = .idle ∧ idleS.rx.state = .idle ∧ a.cfg.cap = idleS.cfg.cap ∧
      a.cfg.fcEn = true ∧ a.cfg.tXferTicks = 0 ∧ payload8.length ≤ 4095 ∧ payload8.length ≤ idleS.cfg.rxBufCap ∧
      a.input = sendScript a.cfg payload8 0#8 :=
  ⟨⟨cfg5_legal, .ofReset _, .ofReset _⟩, idle_inv, by decide, by decide, by decide, by decide, by decide, by decide,
    by decide, by decide, by decide⟩

end Sys2Proof.Tests
end

section
/-!
SUPPORT. The Segmenter's proofs: what a decoded Flow Control frame and `SEND` are to it, an equation a case, and the
obligations O28 and O32.
-/

namespace Sys2Proof

/-- R84: a Flow Control frame with a recognized status and both its fields decodes, whatever follows them. -/
@[simp] theorem decodeFC_flowCode (fs : FlowStatus) (bs st : Byte) (pad : List Byte) :
    decodeFC (flowCode fs) (bs :: st :: pad) = .fc fs bs st := by
  simp [decodeFC]

/-- R86 inside its precondition: the length byte, then the payload. -/
theorem encSF_of_fits {cap : Nat} {p : List Byte} (hp : p.length ≤ cap - 1) :
    encSF cap p = some (BitVec.ofNat 8 p.length :: p) :=
  (encSF_eq_some_iff cap p _).2 ⟨hp, by rw [BitVec.zero_or]⟩

namespace Machine

/-! ### Flow Control -/

theorem exec_fcOvflw (bs st : Byte) (pad : List Byte) (s : State) :
    exec (.fcOvflw (bs :: st :: pad)) s = .next (deliver (.fc .ovflw bs st) s) :=
  congrArg (fun v => Host.Outcome.next (deliver v s)) (decodeFC_flowCode .ovflw bs st pad)

theorem segFlow_ovflw (bs st : Byte) (s : State) : segFlow .ovflw bs st s = raiseTx .peerOverflow s := rfl

/-! ### `SEND` -/

/-- A frame and the report that follows it, in the order emitted (R8). -/
theorem emit_presentFrame (a : Action) (d : List Byte) (s : State) :
    emit a (presentFrame d s) = { s with out := s.out ++ [.linkTx s.cfg.txAddr d, a] } := by
  simp [emit, presentFrame]

/-- R148: the step that is offered a `SEND` the ports admit. -/
theorem step_send {s : State} {p : List Byte} {ok : Bool} {rest : List Stimulus} (hl : s.cfg.Legal)
    (hi : s.input = ⟨.send p, ok⟩ :: rest) (hp : PayloadFits p) :
    step s = segSend p (takeStimulus ⟨.send p, ok⟩ rest s) := by
  rw [step_of_cons hl hi]; exact if_pos hp

/-- R101: in `TX_IDLE` a payload that fits one frame goes out as a Single Frame, and its answer is the link's. -/
theorem segSend_single {s : State} {p : List Byte} (hs : s.tx.state = .idle) (hp : p.length ≤ s.cfg.cap - 1) :
    segSend p s = .next (emit (.txDone (if s.linkOk then .ok else .err .linkError))
      (presentFrame (BitVec.ofNat 8 p.length :: p) s)) := by
  unfold segSend segSendSingle
  rw [if_pos hs, if_pos hp, encSF_of_fits hp]

/-- A payload that fits one frame of a legal capacity can be presented. -/
theorem payloadFits_of_single {c : Config} {p : List Byte} (hl : c.Legal) (hp : p.length ≤ c.cap - 1) :
    PayloadFits p := by
  obtain ⟨⟨-, hcap⟩, -⟩ := hl
  simp only [PayloadFits, maxPayload]
  omega

/-! ### The obligations -/

/-- Settles O28: the frame is the Segmenter's while it waits for Flow Control, and Overflow raises `PeerOverflow`. -/
theorem overflowEndsTheSend : Obligations.OverflowEndsTheSend := by
  unfold Obligations.OverflowEndsTheSend
  intro s bs st pad hw
  rw [exec_fcOvflw, deliver_segmenter hw, segFlow_ovflw]
  rfl

/-- Settles O32: the step is `segSend` of the taken event, and the two actions are appended one after the other. -/
theorem sendOfAShortPayloadIsOneSingleFrame : Obligations.SendOfAShortPayloadIsOneSingleFrame := by
  unfold Obligations.SendOfAShortPayloadIsOneSingleFrame
  intro s p ok rest hl hi hs hp
  rw [step_send hl hi (payloadFits_of_single hl hp),
    segSend_single (s := takeStimulus ⟨.send p, ok⟩ rest s) hs hp, emit_presentFrame]
  rfl

end Machine
end Sys2Proof
end

section
/-!
SUPPORT. The Reassembler's proofs: what a Single Frame and a Consecutive Frame are to it, an equation a case, and the
obligations O16 and O22.
-/

namespace Sys2Proof

/-- R81: a Single Frame that holds its declared length decodes to that many bytes, whatever follows them. -/
theorem decodeSF_of_fits {dl : Nibble} {tail : List Byte} (h : dl.toNat ≤ tail.length) :
    decodeSF dl tail = .sf (tail.take dl.toNat) :=
  if_neg (Nat.not_lt.2 h)

namespace Machine

/-! ### Single Frames -/

theorem exec_sf {dl : Nibble} {tail : List Byte} (h : dl.toNat ≤ tail.length) (s : State) :
    exec (.sf dl tail) s = .next (reaSingle (tail.take dl.toNat) s) :=
  congrArg (fun v => Host.Outcome.next (deliver v s)) (decodeSF_of_fits h)

/-- R121: in `RX_IDLE` the payload is handed over at once. -/
theorem reaSingle_of_idle {s : State} (hs : s.rx.state = .idle) (p : List Byte) :
    reaSingle p s = emit (.rxPayload p) s := by
  simp only [reaSingle, hs]

/-! ### Consecutive Frames -/

/-- R83: a Consecutive Frame always decodes, so it is the Reassembler's with all its bytes. -/
theorem exec_cf (sn : Nibble) (p : List Byte) (s : State) : exec (.cf sn p) s = .next (reaConsecutive sn p s) := rfl

/-- R129: during a reception any number but the expected one is a sequence error. -/
theorem reaConsecutive_of_ne_sn {s : State} {sn : Nibble} (hs : s.rx.state = .awaitCf) (hn : sn ≠ s.rx.sn)
    (p : List Byte) : reaConsecutive sn p s = raiseRx .sequenceError s := by
  simp only [reaConsecutive, hs, if_neg hn]

/-! ### The obligations -/

/-- Settles O16: the frame decodes to its first `dl` bytes, and an idle Reassembler only emits them. -/
theorem singleFrameDeliversItsPayloadWhenIdle : Obligations.SingleFrameDeliversItsPayloadWhenIdle := by
  unfold Obligations.SingleFrameDeliversItsPayloadWhenIdle
  intro s dl tail hfit hs
  rw [exec_sf hfit, reaSingle_of_idle hs]
  rfl

/-- Settles O22: the frame raises `SequenceError`, which clears the receive half and touches nothing else. -/
theorem wrongSequenceNumberAbortsTheReception : Obligations.WrongSequenceNumberAbortsTheReception := by
  unfold Obligations.WrongSequenceNumberAbortsTheReception
  intro s sn p hs hn
  rw [exec_cf, reaConsecutive_of_ne_sn hs hn]
  rfl

end Machine
end Sys2Proof
end

section
/-!
SUPPORT. The codec's proofs: what the two decoders make of a first byte joined from its fields, the rows of the opcode
table, the formatters' first bytes, and the obligations O1 to O8.
-/

namespace Sys2Proof

/-! ### The bounds of a legal configuration -/

section Legal

variable {c : Config} (hl : c.Legal)
include hl

theorem Config.Legal.min_cap : 3 ≤ c.cap := hl.1.1

theorem Config.Legal.max_cap : c.cap ≤ 16 := hl.1.2

theorem Config.Legal.rxBufCap_le : c.rxBufCap ≤ 4095 := hl.2.2.2.2

end Legal

/-! ### First bytes as nibbles and as numbers -/

/-- `b[7:4]` is the byte's quotient by 16 (R8). -/
theorem hiNibble_eq_iff (b : Byte) (n : Nibble) : hiNibble b = n ↔ b.toNat / 16 = n.toNat := by
  rw [← BitVec.toNat_inj]
  simp only [hiNibble, BitVec.extractLsb'_toNat, Nat.shiftRight_eq_div_pow]
  have := b.isLt
  omega

/-- A first byte of type 4 or more is none of the four types. -/
theorem hiNibble_ne_of_type_ge {b : Byte} (hb : 4 ≤ b.toNat / 16) {n : Nibble} (hn : n.toNat < 4) : hiNibble b ≠ n :=
  fun h => by rw [hiNibble_eq_iff] at h; omega

/-- `b[3:0]` is the byte's remainder by 16 (R8). -/
theorem loNibble_toNat (b : Byte) : (loNibble b).toNat = b.toNat % 16 := by
  simp [loNibble, BitVec.extractLsb'_toNat]

/-- A 12-bit First Frame length is its high nibble times 256 plus its low byte (R69). -/
theorem toNat_nibble_append (hi : Nibble) (b : Byte) : (hi ++ b).toNat = hi.toNat * 256 + b.toNat := by
  rw [BitVec.toNat_append, ← Nat.shiftLeft_add_eq_or_of_lt b.isLt, Nat.shiftLeft_eq]

/-- The header of a Single Frame is type 0 joined with the length (R86). -/
theorem sf_header : ∀ n < 16, 0x00#8 ||| BitVec.ofNat 8 n = 0#4 ++ BitVec.ofNat 4 n := by decide

/-- The first byte of a First Frame is type 1 joined with the length's high bits (R87). -/
theorem ff_header : ∀ n < 16, 0x10#8 ||| BitVec.ofNat 8 n = 1#4 ++ BitVec.ofNat 4 n := by decide

/-- The header of a Consecutive Frame is type 2 joined with the number (R88). -/
theorem cf_header : ∀ sn : Nibble, 0x20#8 ||| sn.zeroExtend 8 = 2#4 ++ sn := by decide

/-- The header of a Flow Control frame is type 3 joined with the status (R89). -/
theorem fc_header : ∀ fs : Nibble, 0x30#8 ||| fs.zeroExtend 8 = 3#4 ++ fs := by decide

/-! ### The verdict on a first byte given by its fields -/

section Verdict

variable (cap : Nat) (lo : Nibble) (tail : List Byte)

@[simp] theorem codecDecode_type0 : codecDecode cap ((0#4 ++ lo) :: tail) = decodeSF lo tail := by
  simp only [codecDecode, hiNibble_append, loNibble_append, if_true]

@[simp] theorem codecDecode_type1 : codecDecode cap ((1#4 ++ lo) :: tail) = decodeFF cap lo tail := by
  simp only [codecDecode, hiNibble_append, loNibble_append]; rfl

@[simp] theorem codecDecode_type2 : codecDecode cap ((2#4 ++ lo) :: tail) = .cf lo tail := by
  simp only [codecDecode, hiNibble_append, loNibble_append]; rfl

@[simp] theorem codecDecode_type3 : codecDecode cap ((3#4 ++ lo) :: tail) = decodeFC lo tail := by
  simp only [codecDecode, hiNibble_append, loNibble_append]; rfl

/-- R85: the types 4 to 15 are unsupported. -/
theorem codecDecode_type_ge {b : Byte} (hb : 4 ≤ b.toNat / 16) :
    codecDecode cap (b :: tail) = .err .unsupportedFrameType := by
  simp only [codecDecode, hiNibble_ne_of_type_ge hb (n := 0#4) (by decide),
    hiNibble_ne_of_type_ge hb (n := 1#4) (by decide), hiNibble_ne_of_type_ge hb (n := 2#4) (by decide),
    hiNibble_ne_of_type_ge hb (n := 3#4) (by decide), if_false]
  rfl

/-- A byte of type `n` is `n` joined with its low nibble. -/
theorem eq_append_of_type {b : Byte} (n : Nibble) (h : b.toNat / 16 = n.toNat) : b = n ++ loNibble b := by
  rw [← (hiNibble_eq_iff b n).2 h, nibbles_append]

end Verdict

/-! ### One frame type at a time -/

/-- R81: a Single Frame shorter than its declared length is malformed. -/
theorem decodeSF_of_short {dl : Nibble} {tail : List Byte} (h : tail.length < dl.toNat) :
    decodeSF dl tail = .err .malformedFrame := if_pos h

@[simp] theorem decodeFF_nil (cap : Nat) (hi : Nibble) : decodeFF cap hi [] = .err .malformedFrame := rfl

/-- R82: a First Frame that announces at most `CAP - 2` bytes is malformed. -/
theorem decodeFF_of_le {cap : Nat} {hi : Nibble} {b1 : Byte} (h : hi.toNat * 256 + b1.toNat ≤ cap - 2)
    (chunk : List Byte) : decodeFF cap hi (b1 :: chunk) = .err .malformedFrame := by
  simp only [decodeFF, toNat_nibble_append, if_pos h]

/-- R82: any other First Frame carries its 12-bit length and its chunk. -/
theorem decodeFF_of_lt {cap : Nat} {hi : Nibble} {b1 : Byte} (h : cap - 2 < hi.toNat * 256 + b1.toNat)
    (chunk : List Byte) : decodeFF cap hi (b1 :: chunk) = .ff (hi.toNat * 256 + b1.toNat) chunk := by
  simp only [decodeFF, toNat_nibble_append, if_neg (Nat.not_le.2 h)]

/-- R84: a Flow Control frame of fewer than three bytes is malformed. -/
theorem decodeFC_of_short (lo : Nibble) {tail : List Byte} (h : tail.length < 2) :
    decodeFC lo tail = .err .malformedFrame := by
  match tail, h with
  | [], _ => rfl
  | [_], _ => rfl

/-- R84: a Flow Control frame with an unrecognized status is malformed, short or not. -/
theorem decodeFC_of_unrecognized {lo : Nibble} (h : 2 < lo.toNat) (tail : List Byte) :
    decodeFC lo tail = .err .malformedFrame := by
  unfold decodeFC
  rw [(flowStatus_eq_none_iff lo).2 h]
  split <;> rfl

/-! ### The rows of the opcode table -/

/-- The fields of the rejected status rows (R84): status 4 to 7 is `01` joined with two bits. -/
theorem rsvd47_fields : ∀ low : BitVec 2, 0b001101#6 ++ low = 3#4 ++ (0b01#2 ++ low) ∧ 2 < (0b01#2 ++ low).toNat ∧
    0b01#2 ++ low ≠ 3#4 ∧ (0b01#2 ++ low).msb = false ∧ (0b01#2 ++ low).extractLsb' 0 2 = low := by decide

/-- Status 8 to 15 is `1` joined with three bits. -/
theorem rsvd815_fields : ∀ low : BitVec 3, 0b00111#5 ++ low = 3#4 ++ (0b1#1 ++ low) ∧ 2 < (0b1#1 ++ low).toNat ∧
    0b1#1 ++ low ≠ 3#4 ∧ (0b1#1 ++ low).msb = true ∧ (0b1#1 ++ low).extractLsb' 0 3 = low := by decide

/-- The fields of the unsupported rows (R85): types 4 to 7 are `01` joined with six bits. -/
theorem unsup47_fields : ∀ low : BitVec 6, 4 ≤ (0b01#2 ++ low).toNat / 16 ∧
    (0b01#2 ++ low).msb = false ∧ (0b01#2 ++ low).extractLsb' 0 6 = low := by decide

/-- Types 8 to 15 are `1` joined with seven bits. -/
theorem unsup815_fields : ∀ low : BitVec 7, 4 ≤ (0b1#1 ++ low).toNat / 16 ∧
    (0b1#1 ++ low).msb = true ∧ (0b1#1 ++ low).extractLsb' 0 7 = low := by decide

@[simp] theorem decodeForm_type3 (lo : Nibble) (tail : List Byte) :
    decodeForm (3#4 ++ lo) tail = decodeFcForm lo tail := by
  simp only [decodeForm, hiNibble_append, loNibble_append]; rfl

theorem decodeForm_type_ge {b : Byte} (hb : 4 ≤ b.toNat / 16) (tail : List Byte) : decodeForm b tail =
    if b.msb then .unsup815 (b.extractLsb' 0 7) tail else .unsup47 (b.extractLsb' 0 6) tail := by
  simp only [decodeForm, hiNibble_ne_of_type_ge hb (n := 0#4) (by decide),
    hiNibble_ne_of_type_ge hb (n := 1#4) (by decide), hiNibble_ne_of_type_ge hb (n := 2#4) (by decide),
    hiNibble_ne_of_type_ge hb (n := 3#4) (by decide), if_false]

/-- A status of 3 or more is none of the three recognized ones. -/
theorem decodeFcForm_of_unrecognized {lo : Nibble} (h : 2 < lo.toNat) (h3 : lo ≠ 3#4) (tail : List Byte) :
    decodeFcForm lo tail =
      if lo.msb then .fcRsvd815 (lo.extractLsb' 0 3) tail else .fcRsvd47 (lo.extractLsb' 0 2) tail := by
  have hne (n : Nibble) (hn : n.toNat ≤ 2) : lo ≠ n := fun e => by rw [e] at h; omega
  simp only [decodeFcForm, hne 0#4 (by decide), hne 1#4 (by decide), hne 2#4 (by decide), h3, if_false]

/-- The row an instruction is encoded with is the row the decoder reads. -/
theorem decodeForm_encode (i : Instr) : ∃ b, encode i = b :: i.tail ∧ decodeForm b i.tail = i := by
  cases i with
  | sf lo tail => exact ⟨_, rfl, by simp [decodeForm, Instr.tail]⟩
  | ff lo tail => exact ⟨_, rfl, by simp [decodeForm, Instr.tail]⟩
  | cf lo tail => exact ⟨_, rfl, by simp [decodeForm, Instr.tail]⟩
  | fcCts tail => exact ⟨_, rfl, rfl⟩
  | fcWait tail => exact ⟨_, rfl, rfl⟩
  | fcOvflw tail => exact ⟨_, rfl, rfl⟩
  | fcRsvd3 tail => exact ⟨_, rfl, rfl⟩
  | fcRsvd47 low tail =>
    obtain ⟨hb, hge, h3, hmsb, hlow⟩ := rsvd47_fields low
    exact ⟨_, rfl, by simp [hb, decodeFcForm_of_unrecognized hge h3, hmsb, hlow, Instr.tail]⟩
  | fcRsvd815 low tail =>
    obtain ⟨hb, hge, h3, hmsb, hlow⟩ := rsvd815_fields low
    exact ⟨_, rfl, by simp [hb, decodeFcForm_of_unrecognized hge h3, hmsb, hlow, Instr.tail]⟩
  | unsup47 low tail =>
    obtain ⟨hge, hmsb, hlow⟩ := unsup47_fields low
    exact ⟨_, rfl, by rw [decodeForm_type_ge hge, hmsb, hlow]; rfl⟩
  | unsup815 low tail =>
    obtain ⟨hge, hmsb, hlow⟩ := unsup815_fields low
    exact ⟨_, rfl, by rw [decodeForm_type_ge hge, hmsb, hlow]; rfl⟩

/-- A Flow Control row holds the status in its fixed and free bits. -/
theorem encode_decodeFcForm (lo : Nibble) (tail : List Byte) : encode (decodeFcForm lo tail) = (3#4 ++ lo) :: tail := by
  have h47 : ∀ lo : Nibble, lo ≠ 0#4 → lo ≠ 1#4 → lo ≠ 2#4 → lo ≠ 3#4 → ¬ lo.msb = true →
    0b001101#6 ++ lo.extractLsb' 0 2 = 3#4 ++ lo := by decide
  have h815 : ∀ lo : Nibble, lo.msb = true → 0b00111#5 ++ lo.extractLsb' 0 3 = 3#4 ++ lo := by decide
  unfold decodeFcForm
  repeat' split
  · subst lo; rfl
  · subst lo; rfl
  · subst lo; rfl
  · subst lo; rfl
  · exact congrArg (· :: tail) (h815 lo ‹_›)
  · exact congrArg (· :: tail) (h47 lo ‹_› ‹_› ‹_› ‹_› ‹_›)

/-- The row the decoder reads holds the byte in its fixed and free bits (R74). -/
theorem encode_decodeForm (b : Byte) (tail : List Byte) : encode (decodeForm b tail) = b :: tail := by
  have h47 : ∀ b : Byte, hiNibble b ≠ 0#4 → hiNibble b ≠ 1#4 → hiNibble b ≠ 2#4 → hiNibble b ≠ 3#4 →
    ¬ b.msb = true → 0b01#2 ++ b.extractLsb' 0 6 = b := by decide
  have h815 : ∀ b : Byte, b.msb = true → 0b1#1 ++ b.extractLsb' 0 7 = b := by decide
  have hn := nibbles_append b
  unfold decodeForm
  split
  · rename_i h; rw [h] at hn; exact congrArg (· :: tail) hn
  split
  · rename_i h; rw [h] at hn; exact congrArg (· :: tail) hn
  split
  · rename_i h; rw [h] at hn; exact congrArg (· :: tail) hn
  split
  · rename_i h; rw [h] at hn; rw [encode_decodeFcForm, hn]
  split
  · exact congrArg (· :: tail) (h815 b ‹_›)
  · exact congrArg (· :: tail) (h47 b ‹_› ‹_› ‹_› ‹_› ‹_›)

/-- Every instruction's first byte matches its own row. -/
theorem rowOf_matches (i : Instr) : Laws.FirstByte.Statement i := by
  cases i with
  | sf => exact Laws.FirstByte.sf _ _
  | ff => exact Laws.FirstByte.ff _ _
  | cf => exact Laws.FirstByte.cf _ _
  | fcCts => exact Laws.FirstByte.fcCts _
  | fcWait => exact Laws.FirstByte.fcWait _
  | fcOvflw => exact Laws.FirstByte.fcOvflw _
  | fcRsvd3 => exact Laws.FirstByte.fcRsvd3 _
  | fcRsvd47 => exact Laws.FirstByte.fcRsvd47 _ _
  | fcRsvd815 => exact Laws.FirstByte.fcRsvd815 _ _
  | unsup47 => exact Laws.FirstByte.unsup47 _ _
  | unsup815 => exact Laws.FirstByte.unsup815 _ _

theorem rowOf_mem_opcodeTable (i : Instr) : rowOf i ∈ opcodeTable := by
  cases i <;> simp [opcodeTable, rowOf]

/-- Two rows of the table that match one byte are the same row: where their masks meet, their patterns differ. -/
theorem opcodeTable_unique {q r : OpcodeRow} (hq : q ∈ opcodeTable) (hr : r ∈ opcodeTable) {b : Byte}
    (hqb : q.matches b = true) (hrb : r.matches b = true) : q = r := by
  have hdisjoint : ∀ q ∈ opcodeTable, ∀ r ∈ opcodeTable,
      q.pattern &&& r.mask = r.pattern &&& q.mask → q = r := by decide
  refine hdisjoint q hq r hr ?_
  simp only [OpcodeRow.matches, beq_iff_eq] at hqb hrb
  rw [← hqb, ← hrb, BitVec.and_assoc, BitVec.and_assoc, BitVec.and_comm q.mask]

/-! ### The obligations -/

/-- Settles O1: each of the eleven frames is evaluated. -/
theorem writtenOutFramesDecodeToTheirForms : Obligations.WrittenOutFramesDecodeToTheirForms := by
  unfold Obligations.WrittenOutFramesDecodeToTheirForms
  decide

/-- Settles O2: the decoded row is in the table and holds the byte, and no other row of the table matches it. -/
theorem everyFirstByteHasOneRowAndTheDecoderPicksIt : Obligations.EveryFirstByteHasOneRowAndTheDecoderPicksIt := by
  unfold Obligations.EveryFirstByteHasOneRowAndTheDecoderPicksIt
  intro b tail
  obtain ⟨b', hb', hmatch⟩ := rowOf_matches (decodeForm b tail)
  rw [encode_decodeForm] at hb'
  obtain rfl : b = b' := (List.cons.inj hb').1
  have hmem := rowOf_mem_opcodeTable (decodeForm b tail)
  exact ⟨hmem, fun r hr => ⟨fun h => opcodeTable_unique hr hmem h hmatch, fun h => h ▸ hmatch⟩⟩

/-- Settles O3: the frame fits, and its first byte is read as the instruction's own row. -/
theorem decodingAnEncodedInstructionGivesItBack : Obligations.DecodingAnEncodedInstructionGivesItBack := by
  unfold Obligations.DecodingAnEncodedInstructionGivesItBack
  intro cap i hfit
  obtain ⟨b, hb, hi⟩ := decodeForm_encode i
  exact (decodeFrame_eq_ok_iff cap _ i).2 ⟨by rw [encode_length]; exact hfit, b, i.tail, hb, hi⟩

/-- Settles O4: an accepted frame fits and has a first byte, which the decoded row gives back. -/
theorem encodingADecodedFrameGivesItBack : Obligations.EncodingADecodedFrameGivesItBack := by
  unfold Obligations.EncodingADecodedFrameGivesItBack
  intro cap d i h
  obtain ⟨hfit, b, tail, rfl, rfl⟩ := (decodeFrame_eq_ok_iff cap d i).1 h
  refine ⟨encode_decodeForm b tail, ?_⟩
  rw [Instr.WellFormed, ← encode_length, encode_decodeForm]
  exact hfit

/-- Settles O5: a byte of type `n` is `n` joined with its low nibble, and each type has its own table. -/
theorem decodeVerdictsFollowTheFrameTables : Obligations.DecodeVerdictsFollowTheFrameTables := by
  unfold Obligations.DecodeVerdictsFollowTheFrameTables
  intro cap
  refine ⟨rfl, fun b tail => ?_⟩
  rw [← loNibble_toNat]
  refine ⟨fun ht hlen => ?_, fun ht hlen => ?_, fun ht hnil => ?_, fun ht b1 chunk htail hlen => ?_,
    fun ht b1 chunk htail hlen => ?_, fun ht => ?_, fun ht hlen => ?_, fun ht hlo => ?_, fun ht bs st pad htail => ?_,
    codecDecode_type_ge cap tail⟩
  · rw [eq_append_of_type 0#4 ht, codecDecode_type0, decodeSF_of_short hlen]
  · rw [eq_append_of_type 0#4 ht, codecDecode_type0, decodeSF_of_fits hlen, loNibble_append]
  · rw [eq_append_of_type 1#4 ht, codecDecode_type1, hnil, decodeFF_nil]
  · rw [eq_append_of_type 1#4 ht, codecDecode_type1, htail, decodeFF_of_le hlen]
  · rw [eq_append_of_type 1#4 ht, codecDecode_type1, htail, decodeFF_of_lt hlen, loNibble_append]
  · rw [eq_append_of_type 2#4 ht, codecDecode_type2, loNibble_append, BitVec.ofNat_toNat, BitVec.setWidth_eq]
  · rw [eq_append_of_type 3#4 ht, codecDecode_type3, decodeFC_of_short _ hlen]
  · rw [eq_append_of_type 3#4 ht, codecDecode_type3, decodeFC_of_unrecognized hlo]
  · have hfc (fs : FlowStatus) (hlo : (loNibble b).toNat = (flowCode fs).toNat) :
        codecDecode cap (b :: tail) = .fc fs bs st := by
      rw [eq_append_of_type 3#4 ht, codecDecode_type3, htail, BitVec.eq_of_toNat_eq hlo, decodeFC_flowCode]
    exact ⟨hfc .cts, hfc .wait, hfc .ovflw⟩

/-- Settles O6: each formatter is split on its precondition, and its header is read as a number. -/
theorem formattersWriteTheFrameTables : Obligations.FormattersWriteTheFrameTables := by
  unfold Obligations.FormattersWriteTheFrameTables
  refine ⟨fun cap p hcap => ⟨fun hp => ⟨_, encSF_of_fits hp, ?_⟩, fun hp => ?_⟩,
    fun cap len c => ⟨fun h1 h2 h3 => ⟨_, _, (encFF_eq_some_iff cap len c _).2 ⟨⟨h1, h2, h3⟩, rfl⟩, ?_, ?_⟩,
      fun h => ?_⟩,
    fun cap sn p => ⟨fun h1 h2 => ⟨_, (encCF_eq_some_iff cap sn p _).2 ⟨⟨h1, h2⟩, rfl⟩, ?_⟩, fun h => ?_⟩,
    fun bs st => ⟨rfl, rfl, rfl⟩⟩
  · rw [BitVec.toNat_ofNat]; omega
  · exact if_neg (Nat.not_le.2 hp)
  · have hi : len >>> 8 = len / 256 := Nat.shiftRight_eq_div_pow len 8
    rw [hi, ff_header _ (by omega), BitVec.toNat_append, ← Nat.shiftLeft_add_eq_or_of_lt (BitVec.isLt _)]
    simp; omega
  · exact BitVec.toNat_ofNat len 8
  · exact if_neg (by rw [maxPayload]; omega)
  · rw [cf_header, BitVec.toNat_append, ← Nat.shiftLeft_add_eq_or_of_lt sn.isLt]; rfl
  · exact if_neg (by omega)

/-- Settles O7: the header a formatter writes is a type joined with its field, which the decoder takes apart again. -/
theorem decodeInvertsTheFormatters : Obligations.DecodeInvertsTheFormatters := by
  unfold Obligations.DecodeInvertsTheFormatters
  intro cap hmin hmax
  refine ⟨fun p d h => ?_, fun len c d h => ?_, fun sn p d h => ?_, fun fs bs st => ?_⟩
  · obtain ⟨hp, rfl⟩ := (encSF_eq_some_iff cap p d).1 h
    have hn : (BitVec.ofNat 4 p.length).toNat = p.length := Nat.mod_eq_of_lt (by omega)
    rw [sf_header _ (by omega), codecDecode_type0, decodeSF_of_fits (Nat.le_of_eq hn), hn, List.take_length]
  · obtain ⟨⟨hlo, hhi, hc⟩, rfl⟩ := (encFF_eq_some_iff cap len c d).1 h
    rw [maxPayload] at hhi
    have hdiv : len >>> 8 = len / 256 := Nat.shiftRight_eq_div_pow len 8
    have hlen : (BitVec.ofNat 4 (len >>> 8)).toNat * 256 + (BitVec.ofNat 8 len).toNat = len := by
      simp only [BitVec.toNat_ofNat]; omega
    rw [ff_header _ (by omega), codecDecode_type1, decodeFF_of_lt (by rw [hlen]; exact hlo), hlen]
  · obtain ⟨-, rfl⟩ := (encCF_eq_some_iff cap sn p d).1 h
    rw [cf_header, codecDecode_type2]
  · rw [encFC, fc_header, codecDecode_type3, decodeFC_flowCode]

/-- Settles O8: the ranges of the table exclude one another. -/
theorem separationBytesConvertToTicks : Obligations.SeparationBytesConvertToTicks := by
  unfold Obligations.SeparationBytesConvertToTicks
  intro b
  unfold Machine.stTicks
  refine ⟨fun h => if_pos h, fun h1 h2 => ?_, fun h1 h2 => ?_, fun h => ?_⟩
  · rw [if_neg (by omega), if_pos ⟨h1, h2⟩]
  · rw [if_neg (by omega), if_neg (by omega)]
  · rw [if_neg (by omega), if_neg (by omega)]

end Sys2Proof
end

section
/-!
SUPPORT. The router's proofs: the rows' meanings are the router on `decode`'s verdict, what a step does with a frame, which
verdicts the Segmenter can be given, and the obligations O10 to O15, O29 and O30.
-/

namespace Sys2Proof.Machine

/-! ### An instruction's meaning and the verdict on its bytes -/

/-- R142 with R80: the meaning of a row is what the router does with `decode`'s verdict on its bytes. -/
theorem exec_eq_deliver (i : Instr) (s : State) : exec i s = .next (deliver (codecDecode s.cfg.cap (encode i)) s) := by
  cases i with
  | sf dl tail => rw [encode, codecDecode_type0]; rfl
  | ff hi tail => rw [encode, codecDecode_type1]; rfl
  | cf sn tail => rw [encode, codecDecode_type2]; rfl
  | fcCts tail => rfl
  | fcWait tail => rfl
  | fcOvflw tail => rfl
  | fcRsvd3 tail => rfl
  | fcRsvd47 low tail => rw [encode, (rsvd47_fields low).1, codecDecode_type3]; rfl
  | fcRsvd815 low tail => rw [encode, (rsvd815_fields low).1, codecDecode_type3]; rfl
  | unsup47 low tail => rw [encode, codecDecode_type_ge _ _ (unsup47_fields low).1]; rfl
  | unsup815 low tail => rw [encode, codecDecode_type_ge _ _ (unsup815_fields low).1]; rfl

/-- The row of a recognized flow status. -/
def fcForm : FlowStatus → List Byte → Instr
  | .cts => .fcCts
  | .wait => .fcWait
  | .ovflw => .fcOvflw

theorem exec_fcForm (fs : FlowStatus) (tail : List Byte) (s : State) :
    exec (fcForm fs tail) s = .next (deliver (decodeFC (flowCode fs) tail) s) := by
  cases fs <;> rfl

theorem decodeFcForm_flowCode (fs : FlowStatus) (tail : List Byte) : decodeFcForm (flowCode fs) tail = fcForm fs tail := by
  cases fs <;> rfl

/-- R84: the frames that decode to a Flow Control form. -/
theorem codecDecode_eq_fc {cap : Nat} {d : List Byte} {fs : FlowStatus} {bs st : Byte}
    (h : codecDecode cap d = .fc fs bs st) : ∃ pad, d = (3#4 ++ flowCode fs) :: bs :: st :: pad := by
  have hstatus : ∀ lo : Nibble, ∀ fs : FlowStatus, flowStatus lo = some fs → lo = flowCode fs := by
    intro lo fs
    cases fs <;> revert lo <;> decide
  cases d with
  | nil => cases h
  | cons b tail =>
    unfold codecDecode decodeSF decodeFF decodeCF decodeFC decodeUnsupported at h
    dsimp only at h
    split at h
    · split at h <;> cases h
    split at h
    · repeat' split at h
      all_goals cases h
    split at h
    · cases h
    split at h
    · rename_i htype
      split at h
      · split at h
        · rename_i fs' hlo
          cases h
          rw [← hstatus _ _ hlo, ← htype, nibbles_append]
          exact ⟨_, rfl⟩
        · cases h
      · cases h
    · cases h

/-- Only a recognized Flow Control row can be given to the Segmenter. -/
theorem eq_fcForm_of_codecDecode {cap : Nat} {i : Instr} {fs : FlowStatus} {bs st : Byte}
    (h : codecDecode cap (encode i) = .fc fs bs st) : ∃ tail, i = fcForm fs tail := by
  obtain ⟨pad, hd⟩ := codecDecode_eq_fc h
  obtain ⟨b, hb, hi⟩ := decodeForm_encode i
  rw [hb] at hd
  refine ⟨i.tail, ?_⟩
  rw [← decodeFcForm_flowCode, ← decodeForm_type3, ← (List.cons.inj hd).1, hi]

/-! ### A frame that arrives -/

/-- R142 on the bytes of a frame that fits, the empty one included. -/
theorem receiveFrame_eq {d : List Byte} {s : State} (hd : d.length ≤ s.cfg.cap) (a : Addr) :
    receiveFrame a d s = .next (if a = s.cfg.rxAddr then deliver (codecDecode s.cfg.cap d) s else s) := by
  by_cases ha : a = s.cfg.rxAddr
  · rw [if_pos ha]
    cases d with
    | nil => exact receiveFrame_empty ha
    | cons b tail =>
      rw [receiveFrame_ok ha ((decodeFrame_eq_ok_iff _ _ _).2 ⟨hd, b, tail, rfl, rfl⟩), exec_eq_deliver,
        encode_decodeForm]
  · rw [if_neg ha, receiveFrame_other ha]

/-- R148: the step that is offered a frame of at most `CAP` bytes. -/
theorem step_linkRx {s : State} {a : Addr} {d : List Byte} {ok : Bool} {rest : List Stimulus} (hl : s.cfg.Legal)
    (hi : s.input = ⟨.linkRx a d, ok⟩ :: rest) (hd : d.length ≤ s.cfg.cap) :
    step s = receiveFrame a d (takeStimulus ⟨.linkRx a d, ok⟩ rest s) := by
  rw [step_of_cons hl hi]; exact if_pos hd

/-- The step on a frame that arrives with an accepting link, as the runs offer it. -/
theorem step_arrives {s : State} {d : List Byte} {rest : List Stimulus} (hl : s.cfg.Legal)
    (hi : s.input = arrives s.cfg d :: rest) (hd : d.length ≤ s.cfg.cap) :
    step s = .next (deliver (codecDecode s.cfg.cap d) { s with input := rest, linkOk := true }) := by
  rw [step_linkRx hl hi hd, receiveFrame_eq (s := takeStimulus _ rest s) hd]
  exact congrArg _ (if_pos rfl)

/-! ### The obligations -/

/-- Settles O13: each row's meaning is the router's, row by row. -/
theorem everyFormCompletesByItsDecodeVerdict : Obligations.EveryFormCompletesByItsDecodeVerdict := by
  unfold Obligations.EveryFormCompletesByItsDecodeVerdict
  exact exec_eq_deliver

/-- Settles O10: a decoded frame fits, and the session runs the instruction it is. -/
theorem stepRunsTheDecodedInstruction : Obligations.StepRunsTheDecodedInstruction := by
  unfold Obligations.StepRunsTheDecodedInstruction
  intro s d ok rest i hl hi hdec
  rw [step_linkRx hl hi ((decodeFrame_eq_ok_iff _ _ _).1 hdec).1]
  exact receiveFrame_ok rfl hdec

/-- Settles O11: the placed word is offered as a full frame from `RX_ADDR`, so O10 applies to it. -/
theorem placedWordIsTheNextInstruction : Obligations.PlacedWordIsTheNextInstruction := by
  unfold Obligations.PlacedWordIsTheNextInstruction
  intro s nbits w i hl hcap hw
  have hdec : decodeFrame s.cfg.cap (tableFrame s.cfg.cap nbits w) = .ok i := by
    rw [hcap]
    unfold decodeTableWord at hw
    split at hw
    · rename_i hok; cases hw; exact hok
    · cases hw
  exact stepRunsTheDecodedInstruction (s.withFetchWord nbits w) _ true s.input i hl rfl hdec

/-- Settles O12: a frame that fits is routed by `decode`'s verdict exactly when it comes from `RX_ADDR`. -/
theorem arrivingFramesAreRoutedByDecodeVerdict : Obligations.ArrivingFramesAreRoutedByDecodeVerdict := by
  unfold Obligations.ArrivingFramesAreRoutedByDecodeVerdict
  intro s a d ok rest hl hi hd
  rw [step_linkRx hl hi hd, receiveFrame_eq (s := takeStimulus _ rest s) hd]
  rfl

/-- Settles O14: a frame that is not the Segmenter's is dropped or is a rule of the Reassembler. -/
theorem otherFramesNeverChangeTheTransmitHalf : Obligations.OtherFramesNeverChangeTheTransmitHalf := by
  unfold Obligations.OtherFramesNeverChangeTheTransmitHalf
  intro s a d ok rest hl hi hd hnot
  refine ⟨_, arrivingFramesAreRoutedByDecodeVerdict s a d ok rest hl hi hd, ?_⟩
  split
  · exact (deliver_rxRule (s := { s with input := rest, linkOk := ok }) fun hseg => hnot ⟨‹_›, hseg⟩).tx
  · rfl

/-- Settles O15: each refusal is the first test its input fails. -/
theorem excludedInputsAreRefusedByName : Obligations.ExcludedInputsAreRefusedByName := by
  unfold Obligations.ExcludedInputsAreRefusedByName
  refine ⟨fun s hl => if_neg hl, fun s p ok rest hl hi hp => ?_, fun s a d ok rest hl hi hd => ?_⟩
  · rw [step_of_cons hl hi]; exact if_neg (Nat.not_le.2 hp)
  · rw [step_of_cons hl hi]; exact if_neg (Nat.not_le.2 hd)

/-- Settles O29: none of these rows decodes to a Flow Control form, so each is a rule of the Reassembler. -/
theorem dataAndRejectedFormsKeepTheTransmitSide : Obligations.DataAndRejectedFormsKeepTheTransmitSide := by
  unfold Obligations.DataAndRejectedFormsKeepTheTransmitSide
  intro i s t hform h
  rw [exec_eq_deliver] at h
  cases h
  have hnot : ¬ ForSegmenter (codecDecode s.cfg.cap (encode i)) s := by
    rintro ⟨-, fs, bs, st, hv⟩
    obtain ⟨tail, rfl⟩ := eq_fcForm_of_codecDecode hv
    obtain ⟨hcts, hwait, hovflw⟩ := hform tail
    cases fs with
    | cts => exact hcts rfl
    | wait => exact hwait rfl
    | ovflw => exact hovflw rfl
  obtain ⟨⟨hcfg, hinput, hlink, hout⟩, htx⟩ := deliver_rxRule hnot
  exact ⟨hcfg, hinput, hlink, htx, fun j => by rw [txByte, htx]; rfl, hout⟩

/-- O30's clauses for the row of a recognized status: the frame is the Segmenter's when that half waits and both fields
are there, and the Reassembler's otherwise. -/
theorem fcForm_keeps_the_rest {fs : FlowStatus} {tail : List Byte} {s t : State} (h : exec (fcForm fs tail) s = .next t) :
    SamePorts s t ∧
    (s.tx.state = .waitFc → 2 ≤ tail.length → t.rx = s.rx ∧
      (fs ≠ .ovflw → t.out = s.out ∧ t.tx.len = s.tx.len ∧ t.tx.off = s.tx.off ∧ t.tx.sn = s.tx.sn ∧
        t.tx.total = s.tx.total ∧ t.tx.buf = s.tx.buf)) ∧
    (s.tx.state ≠ .waitFc ∨ tail.length < 2 → t.tx = s.tx) := by
  rw [exec_fcForm] at h
  cases h
  refine ⟨deliver_samePorts _ s, fun hw hlen => ?_, fun hnot => (deliver_rxRule ?_).tx⟩
  · obtain ⟨bs, st, pad, rfl⟩ : ∃ bs st pad, tail = bs :: st :: pad := by
      match tail, hlen with
      | bs :: st :: pad, _ => exact ⟨bs, st, pad, rfl⟩
    rw [decodeFC_flowCode, deliver_segmenter hw]
    refine ⟨(segFlow_txRule fs bs st s).rx, fun hfs => ?_⟩
    cases fs with
    | cts => exact ⟨rfl, rfl, rfl, rfl, rfl, rfl⟩
    | wait => exact ⟨rfl, rfl, rfl, rfl, rfl, rfl⟩
    | ovflw => exact absurd rfl hfs
  · rintro ⟨hw, fs', bs, st, hv⟩
    rcases hnot with hs | hlen
    · exact hs hw
    · rw [decodeFC_of_short _ hlen] at hv; cases hv

/-- Settles O30: the three rows are those of the three statuses, and equal buffers have equal bytes. -/
theorem flowControlFormsKeepTheRest : Obligations.FlowControlFormsKeepTheRest := by
  unfold Obligations.FlowControlFormsKeepTheRest
  intro i s t tail hform h
  obtain ⟨fs, rfl⟩ : ∃ fs, i = fcForm fs tail := by
    rcases hform with rfl | rfl | rfl
    · exact ⟨.cts, rfl⟩
    · exact ⟨.wait, rfl⟩
    · exact ⟨.ovflw, rfl⟩
  obtain ⟨⟨hcfg, hinput, hlink, hout⟩, htaken, hother⟩ := fcForm_keeps_the_rest h
  refine ⟨⟨hcfg, hinput, hlink, hout⟩, fun hw hlen => ?_, fun hnot => ?_⟩
  · obtain ⟨hrx, hkeep⟩ := htaken hw hlen
    refine ⟨hrx, fun j => by rw [rxByte, hrx]; rfl, fun hne => ?_⟩
    obtain ⟨hout, hlen, hoff, hsn, htotal, hbuf⟩ := hkeep fun hfs => hne (by rw [hfs]; rfl)
    exact ⟨hout, hlen, hoff, hsn, htotal, fun j => by rw [txByte, hbuf]; rfl⟩
  · have htx := hother hnot
    exact ⟨htx, fun j => by rw [txByte, htx]; rfl⟩

end Sys2Proof.Machine
end

section
/-!
SUPPORT. The Reassembler's proofs on the remaining frames: an equation for each outcome of a First Frame, a Consecutive
Frame and a rejected one, and the obligations O9, O17 to O21, O23 to O25 and O31.
-/

namespace Sys2Proof.Machine

/-! ### The router, verdict by verdict -/

/-- R142: a Flow Control frame nobody waits for is the Reassembler's. -/
theorem deliver_fc_of_not_waiting {s : State} (hw : s.tx.state ≠ .waitFc) (fs : FlowStatus) (bs st : Byte) :
    deliver (.fc fs bs st) s = reaFlow s := if_neg hw

/-- R130, R131: during a reception the Reassembler takes every verdict but a Consecutive Frame as a violation. -/
theorem deliver_aborts {v : Verdict} {s : State} (hs : s.rx.state = .awaitCf) (hseg : ¬ ForSegmenter v s)
    (hcf : ∀ sn p, v ≠ .cf sn p) : deliver v s = raiseRx .protocolViolation s := by
  cases v with
  | sf p => simp only [deliver, reaSingle, hs]
  | ff len chunk => simp only [deliver, reaFirst, hs]
  | cf sn p => exact absurd rfl (hcf sn p)
  | fc fs bs st => rw [deliver_fc_of_not_waiting fun hw => hseg ⟨hw, fs, bs, st, rfl⟩, reaFlow, hs]
  | err e => simp only [deliver, reaUndecodable, hs]

/-- R125, R131: a rejected frame is reported in `RX_IDLE` and aborts a reception. -/
theorem deliver_err (e : CodecError) (s : State) : deliver (.err e) s =
    if s.rx.state = .idle then emit (.rxError (codecError e)) s else raiseRx .protocolViolation s := by
  cases hs : s.rx.state <;> simp [deliver, reaUndecodable, hs]

/-- The meaning of an instruction whose bytes `decode` rejects. -/
theorem exec_of_err {i : Instr} {s : State} {e : CodecError} (h : codecDecode s.cfg.cap (encode i) = .err e) :
    exec i s = .next (deliver (.err e) s) := by
  rw [exec_eq_deliver, h]

/-! ### First Frames -/

theorem exec_ff {hi : Nibble} {b1 : Byte} {s : State} (h : s.cfg.cap - 2 < hi.toNat * 256 + b1.toNat)
    (chunk : List Byte) : exec (.ff hi (b1 :: chunk)) s = .next (reaFirst (hi.toNat * 256 + b1.toNat) chunk s) :=
  congrArg (fun v => Host.Outcome.next (deliver v s)) (decodeFF_of_lt h chunk)

theorem reaFirst_of_fits {s : State} {len : Nat} (hs : s.rx.state = .idle) (hlen : len ≤ s.cfg.rxBufCap)
    (chunk : List Byte) : reaFirst len chunk s = reaFirstFits len chunk s := by
  simp only [reaFirst, hs, if_pos hlen]

theorem reaFirst_of_too_long {s : State} {len : Nat} (hs : s.rx.state = .idle) (hlen : s.cfg.rxBufCap < len)
    (chunk : List Byte) : reaFirst len chunk s = reaFirstTooLong s := by
  simp only [reaFirst, hs, if_neg (Nat.not_le.2 hlen)]

/-- R122: a chunk shorter than the declared length is stored whole. -/
theorem rxStarted_of_short {len : Nat} {chunk : List Byte} (h : chunk.length ≤ len) (c : Config) :
    rxStarted c len chunk = { state := .awaitCf, buf := chunk, len := len, sn := 1#4, tmr := c.nCrTicks,
                              bsRem := c.rxBs.toNat } := by
  rw [rxStarted, Nat.min_eq_left h, List.take_length]

/-- A refused frame and the error that ends the reception, in the order emitted (R133). -/
theorem raiseRx_presentFrame (e : Error) (d : List Byte) (s : State) : raiseRx e (presentFrame d s) =
    { s with rx := .reset, out := s.out ++ [.linkTx s.cfg.txAddr d, .rxError e] } := by
  simp [raiseRx, endReception, emit, clearRx, presentFrame]

/-! ### Consecutive Frames -/

theorem reaConsecutive_of_sn {s : State} (hs : s.rx.state = .awaitCf) (p : List Byte) :
    reaConsecutive s.rx.sn p s = reaExpected p s := by
  simp only [reaConsecutive, hs, if_true]

/-- R126, R127: the frame that brings the missing bytes completes the reception. -/
theorem reaExpected_of_completing {s : State} {p : List Byte} (hfill : s.rx.buf.length ≤ s.rx.len)
    (hp : s.rx.len ≤ s.rx.buf.length + p.length) :
    reaExpected p s = endReception (.rxPayload (s.rx.buf ++ p.take (s.rx.len - s.rx.buf.length))) s := by
  have hroom : appendRoom s.rx p = s.rx.len - s.rx.buf.length := Nat.min_eq_right (by omega)
  rcases reaExpected_cases p s with ⟨-, h⟩ | ⟨hne, -⟩
  · rw [h]; simp only [bufAppendCapped, hroom]
  · simp only [bufAppendCapped_length] at hne; omega

/-- R126: a frame that leaves the buffer short is stored whole, and the block is looked at. -/
theorem reaExpected_of_short {s : State} {p : List Byte} (hp : s.rx.buf.length + p.length < s.rx.len) :
    reaExpected p s = reaBlockFc { s with rx := { s.rx with
      buf := s.rx.buf ++ p, sn := s.rx.sn + 1#4, tmr := s.cfg.nCrTicks } } := by
  have hroom : appendRoom s.rx p = p.length := Nat.min_eq_left (by omega)
  rcases reaExpected_cases p s with ⟨he, -⟩ | ⟨-, h⟩
  · simp only [bufAppendCapped_length] at he; omega
  · rw [h]; simp only [bufAppendCapped, hroom, List.take_length, nextSn]

/-- R128: without the handshake or without blocks no Flow Control is due. -/
theorem reaBlockFc_of_no_blocks {s : State} (h : s.cfg.fcEn = false ∨ s.cfg.rxBs = 0#8) : reaBlockFc s = s := by
  rcases h with h | h <;> simp [reaBlockFc, h]

section Blocks

variable {s : State} (hfc : s.cfg.fcEn = true) (hbs : s.cfg.rxBs ≠ 0#8)
include hfc hbs

theorem blocks_on : s.cfg.fcEn ∧ 0 < s.cfg.rxBs.toNat :=
  ⟨hfc, Nat.pos_of_ne_zero fun h => hbs (BitVec.eq_of_toNat_eq h)⟩

/-- R128: inside a block the counter falls. -/
theorem reaBlockFc_inside (hrem : 1 < s.rx.bsRem) :
    reaBlockFc s = { s with rx := { s.rx with bsRem := s.rx.bsRem - 1 } } := by
  rw [reaBlockFc, if_pos (blocks_on hfc hbs), countDown, if_neg (by omega)]

/-- R128: at the end of a block ContinueToSend goes out. -/
theorem reaBlockFc_end (hrem : s.rx.bsRem = 1) (hok : s.linkOk = true) :
    reaBlockFc s = presentFlow .cts { s with rx := { s.rx with bsRem := s.cfg.rxBs.toNat } } := by
  rw [reaBlockFc, if_pos (blocks_on hfc hbs), countDown, if_pos (by omega)]
  exact if_pos hok

/-- R128, R133: a link that refuses it ends the reception. -/
theorem reaBlockFc_end_refused (hrem : s.rx.bsRem = 1) (hok : s.linkOk = false) :
    reaBlockFc s = { s with
      rx := .reset
      out := s.out ++ [.linkTx s.cfg.txAddr (encFC .cts s.cfg.rxBs s.cfg.rxStmin), .rxError .linkError] } := by
  rw [reaBlockFc, if_pos (blocks_on hfc hbs), countDown, if_pos (by omega)]
  exact (if_neg (by simp [hok])).trans (raiseRx_presentFrame _ _ _)

end Blocks

/-- While the reception goes on, a block boundary leaves the buffer as it is. -/
theorem reaBlockFc_buf {s : State} (h : (reaBlockFc s).rx.state = .awaitCf) : (reaBlockFc s).rx.buf = s.rx.buf := by
  rcases reaBlockFc_cases s with ⟨-, e⟩ | ⟨-, -, ⟨-, e⟩ | ⟨-, e⟩⟩ | ⟨-, -, e⟩
  · rw [e]
  · rw [e]; rfl
  · rw [e] at h; cases h
  · rw [e]

/-- R126: while the reception goes on, the buffer is the old one and the bytes kept, in order. -/
theorem reaExpected_buf {s : State} {p : List Byte} (h : (reaExpected p s).rx.state = .awaitCf) :
    (reaExpected p s).rx.buf = s.rx.buf ++ p.take (appendRoom s.rx p) := by
  rcases reaExpected_cases p s with ⟨-, e⟩ | ⟨-, e⟩
  · rw [e] at h; cases h
  · rw [e] at h ⊢; rw [reaBlockFc_buf h]; rfl

/-! ### The obligations -/

/-- Settles O9: the append's definition, and what it keeps. -/
theorem cappedAppendKeepsWithinTheDeclaredLength : Obligations.CappedAppendKeepsWithinTheDeclaredLength := by
  unfold Obligations.CappedAppendKeepsWithinTheDeclaredLength
  exact fun r p => ⟨rfl, fun i hi => bufAppendCapped_get_old r p hi, bufAppendCapped_le p⟩

/-- Settles O17: the frame decodes to its length and chunk, and the link's answer decides whether it is recorded. -/
theorem firstFrameStartsAReception : Obligations.FirstFrameStartsAReception := by
  unfold Obligations.FirstFrameStartsAReception
  intro s hi b1 chunk len hlen hwf hlong hfits hs
  subst hlen
  have hchunk : chunk.length ≤ hi.toNat * 256 + b1.toNat := by
    simp only [Instr.WellFormed, Instr.tail, List.length_cons] at hwf; omega
  rw [exec_ff hlong, reaFirst_of_fits hs hfits, reaFirstFits, rxStarted_of_short hchunk]
  refine ⟨fun hfc hok => ?_, fun hfc hok => ?_, fun hfc => ?_⟩
  · rw [if_pos hfc, if_pos hok]; rfl
  · rw [if_pos hfc, if_neg (by simp [hok]), presentFlow, emit_presentFrame]; rfl
  · rw [if_neg (by simp [hfc])]

/-- Settles O18: a length over `RX_BUF_CAP` is answered by `reaFirstTooLong`, case by case of the handshake and the link. -/
theorem firstFrameTooLongIsAnsweredWithOverflow : Obligations.FirstFrameTooLongIsAnsweredWithOverflow := by
  unfold Obligations.FirstFrameTooLongIsAnsweredWithOverflow
  intro s hi b1 chunk hlong hover hs
  rw [exec_ff hlong, reaFirst_of_too_long hs hover, reaFirstTooLong]
  refine ⟨fun hfc hok => ?_, fun hfc hok => ?_, fun hfc => ?_⟩
  · rw [if_pos hfc, if_pos hok]; rfl
  · rw [if_pos hfc, if_neg (by simp [hok]), presentFlow, emit_presentFrame]; rfl
  · rw [if_neg (by simp [hfc])]

/-- Settles O19: in `RX_IDLE` both rules of the Reassembler drop the frame. -/
theorem strayFramesAreDroppedWhenIdle : Obligations.StrayFramesAreDroppedWhenIdle := by
  unfold Obligations.StrayFramesAreDroppedWhenIdle
  intro s hs
  refine ⟨fun sn p => by rw [exec_cf, reaConsecutive, hs], fun hw bs st pad => ?_⟩
  have hfc (fs : FlowStatus) : exec (fcForm fs (bs :: st :: pad)) s = .next s := by
    rw [exec_fcForm, decodeFC_flowCode, deliver_fc_of_not_waiting hw, reaFlow, hs]
  exact ⟨hfc .cts, hfc .wait, hfc .ovflw⟩

/-- Settles O20: the completing frame ends the reception with the payload. -/
theorem expectedConsecutiveFrameCompletes : Obligations.ExpectedConsecutiveFrameCompletes := by
  unfold Obligations.ExpectedConsecutiveFrameCompletes
  intro s p hs hfill hp
  rw [exec_cf, reaConsecutive_of_sn hs, reaExpected_of_completing hfill hp]
  rfl

/-- Settles O21: the frame is stored whole, and the block counter decides what follows. -/
theorem expectedConsecutiveFrameContinues : Obligations.ExpectedConsecutiveFrameContinues := by
  unfold Obligations.ExpectedConsecutiveFrameContinues
  intro s p hs hp
  rw [exec_cf, reaConsecutive_of_sn hs, reaExpected_of_short hp]
  refine ⟨fun hno => ?_, fun hfc hbs hrem => ?_, fun hfc hbs hrem hok => ?_, fun hfc hbs hrem hok => ?_⟩
  · exact congrArg _ (reaBlockFc_of_no_blocks hno)
  · exact congrArg _ (reaBlockFc_inside hfc hbs hrem)
  · exact congrArg _ (reaBlockFc_end hfc hbs hrem hok)
  · exact congrArg _ (reaBlockFc_end_refused hfc hbs hrem hok)

/-- Settles O23: the three kinds of frame decode to verdicts that abort. -/
theorem otherFrameTypesAbortTheReception : Obligations.OtherFrameTypesAbortTheReception := by
  unfold Obligations.OtherFrameTypesAbortTheReception
  intro s hs
  refine ⟨fun dl tail hlen => ?_, fun hi b1 chunk hlong => ?_, fun hw bs st pad => ?_⟩
  · exact (exec_sf hlen s).trans
      (congrArg _ (deliver_aborts (v := .sf _) hs (by simp [ForSegmenter]) (by simp)))
  · exact (exec_ff hlong chunk).trans
      (congrArg _ (deliver_aborts (v := .ff _ chunk) hs (by simp [ForSegmenter]) (by simp)))
  · have hfc (fs : FlowStatus) :
        exec (fcForm fs (bs :: st :: pad)) s = .next (raiseRx .protocolViolation s) := by
      rw [exec_fcForm, decodeFC_flowCode, deliver_aborts hs (fun h => hw h.1) (by simp)]
    exact ⟨hfc .cts, hfc .wait, hfc .ovflw⟩

/-- Settles O24: the meaning of a rejected frame, in each state of the half. -/
theorem rejectedFramesReportOrAbort : Obligations.RejectedFramesReportOrAbort := by
  unfold Obligations.RejectedFramesReportOrAbort
  intro i s
  refine ⟨fun hs he => ?_, fun hs he => ?_, fun hs e he => ?_⟩
  · rw [exec_of_err he, deliver_err, if_pos hs]; rfl
  · rw [exec_of_err he, deliver_err, if_pos hs]; rfl
  · rw [exec_of_err he, deliver_err, if_neg (by simp [hs])]; rfl

/-- Settles O25: `decode` rejects each of these frames, with the error named. -/
theorem rejectedRowsCompleteWithTheirError : Obligations.RejectedRowsCompleteWithTheirError := by
  unfold Obligations.RejectedRowsCompleteWithTheirError
  intro s reported
  have hreport {i : Instr} {e : CodecError} (h : codecDecode s.cfg.cap (encode i) = .err e) :
      exec i s = .next (reported (codecError e)) := by
    rw [exec_of_err h, deliver_err]; rfl
  refine ⟨fun tail => hreport (e := .malformedFrame) ?_, fun low tail => hreport (e := .malformedFrame) ?_,
    fun low tail => hreport (e := .malformedFrame) ?_, fun low tail => hreport (e := .unsupportedFrameType) ?_,
    fun low tail => hreport (e := .unsupportedFrameType) ?_, fun dl tail hlen => hreport (e := .malformedFrame) ?_,
    fun hi => hreport (e := .malformedFrame) ?_, fun hi b1 chunk hlen => hreport (e := .malformedFrame) ?_,
    fun tail hlen => ?_⟩
  · exact decodeFC_of_unrecognized (lo := 3#4) (by decide) tail
  · obtain ⟨hfirst, hstatus, -⟩ := rsvd47_fields low
    rw [encode, hfirst, codecDecode_type3, decodeFC_of_unrecognized hstatus]
  · obtain ⟨hfirst, hstatus, -⟩ := rsvd815_fields low
    rw [encode, hfirst, codecDecode_type3, decodeFC_of_unrecognized hstatus]
  · exact codecDecode_type_ge _ _ (unsup47_fields low).1
  · exact codecDecode_type_ge _ _ (unsup815_fields low).1
  · rw [encode, codecDecode_type0, decodeSF_of_short hlen]
  · rw [encode, codecDecode_type1, decodeFF_nil]
  · rw [encode, codecDecode_type1, decodeFF_of_le hlen]
  · exact ⟨hreport (e := .malformedFrame) (decodeFC_of_short 0#4 hlen),
      hreport (e := .malformedFrame) (decodeFC_of_short 1#4 hlen),
      hreport (e := .malformedFrame) (decodeFC_of_short 2#4 hlen)⟩

/-- Settles O31: the buffer is the old one and the bytes kept, and no rule of the Reassembler writes `tx_buf`. -/
theorem consecutiveFrameStoresOnlyItsBytes : Obligations.ConsecutiveFrameStoresOnlyItsBytes := by
  unfold Obligations.ConsecutiveFrameStoresOnlyItsBytes
  intro s t p hs h ht
  rw [exec_cf, reaConsecutive_of_sn hs] at h
  cases h
  have hbuf := reaExpected_buf ht
  have hroom : appendRoom s.rx p ≤ p.length := Nat.min_le_left _ _
  refine ⟨fun j hj => ?_, fun j hj => ?_, fun j => by rw [txByte, (reaExpected_rxRule p s).tx]; rfl⟩
  · rw [rxByte, rxByte, hbuf]
    rcases hj with hj | hj
    · exact List.getElem?_append_left hj
    · rw [List.getElem?_eq_none (by rw [List.length_append, List.length_take]; omega), List.getElem?_eq_none (by omega)]
  · rw [rxByte, hbuf, List.getElem?_append_right (Nat.le_add_right _ _), Nat.add_sub_cancel_left,
      List.getElem?_take_of_lt hj]

end Sys2Proof.Machine
end

section
/-!
SUPPORT. The Segmenter's proofs on the remaining events: a First Frame, an abort and each outcome of `TICK`, an equation a
case, and the obligations O26, O27, O33 to O35 and O37 to O41.
-/

namespace Sys2Proof

/-- R87 inside its precondition, for the chunk the Segmenter cuts: the header as a number. -/
theorem encFF_of_fits {cap : Nat} {p : List Byte} (hcap : 2 ≤ cap) (hmin : cap ≤ p.length) (hmax : p.length ≤ 4095) :
    encFF cap p.length (p.take (cap - 2)) =
      some (BitVec.ofNat 8 (16 + p.length / 256) :: BitVec.ofNat 8 p.length :: p.take (cap - 2)) := by
  have hheader : ∀ n < 16, BitVec.ofNat 8 (16 + n) = 0x10#8 ||| BitVec.ofNat 8 n := by decide
  have hchunk : (p.take (cap - 2)).length = cap - 2 := by rw [List.length_take]; omega
  refine (encFF_eq_some_iff ..).2 ⟨⟨by omega, hmax, hchunk⟩, ?_⟩
  rw [hheader _ (by omega), Nat.shiftRight_eq_div_pow]

/-- R88 inside its precondition: the header as a number. -/
theorem encCF_of_fits {cap : Nat} {p : List Byte} (hmin : 1 ≤ p.length) (hmax : p.length ≤ cap - 1) (sn : Nibble) :
    encCF cap sn p = some (BitVec.ofNat 8 (32 + sn.toNat) :: p) := by
  have hheader : ∀ sn : Nibble, BitVec.ofNat 8 (32 + sn.toNat) = 0x20#8 ||| sn.zeroExtend 8 := by decide
  exact (encCF_eq_some_iff ..).2 ⟨⟨hmin, hmax⟩, by rw [hheader]⟩

namespace Machine

/-! ### A First Frame -/

/-- R102, R111: in `TX_IDLE` a payload that needs segmenting goes out as a First Frame, and the link's answer decides. -/
theorem segSend_first {s : State} {p : List Byte} (hl : s.cfg.Legal) (hs : s.tx.state = .idle)
    (hmin : s.cfg.cap ≤ p.length) (hmax : p.length ≤ 4095) :
    let d := BitVec.ofNat 8 (16 + p.length / 256) :: BitVec.ofNat 8 p.length :: p.take (s.cfg.cap - 2)
    segSend p s = if s.linkOk then .next { presentFrame d s with tx := txStarted s.cfg p s.tx }
      else .next (emit (.txDone (.err .linkError)) (presentFrame d s)) := by
  intro d
  obtain ⟨⟨hcap, -⟩, -⟩ := hl
  rw [segSend, if_pos hs, if_neg (by omega), segSendFirst, encFF_of_fits (by omega) hmin hmax]

/-! ### `tx_tick` -/

/-- R108: the overall timer after a tick on which it does not fire. -/
def totalAfter (s : State) : Nat := if s.cfg.tXferTicks = 0 then s.tx.total else s.tx.total - 1

theorem countOverall_eq_totalAfter (s : State) :
    countOverall s = { s with tx := { s.tx with total := totalAfter s } } := by
  rw [countOverall_eq, totalAfter]
  by_cases h : s.cfg.tXferTicks = 0 <;> simp [h, countDown, Nat.pos_of_ne_zero]

/-- R109: the Consecutive Frame that is due next. -/
def dueFrame (cap : Nat) (t : TxHalf) : List Byte :=
  BitVec.ofNat 8 (32 + t.sn.toNat) :: (t.buf.drop t.off).take (min (cap - 1) (t.len - t.off))

/-- The engine after the due frame has been presented and the timers counted. -/
def duePresented (s : State) : State :=
  presentFrame (dueFrame s.cfg.cap s.tx) { s with tx := { s.tx with total := totalAfter s, gap := 0 } }

section Tick

variable {s : State}

/-- R108, R174: the overall timer's last tick ends a send before any other timer is looked at. -/
theorem segTick_of_overall (hs : s.tx.state ≠ .idle) (hx : 0 < s.cfg.tXferTicks) (ht : s.tx.total = 1) :
    segTick s = .next (raiseTx .flowControlTimeout s) := by
  have he : overallExpires s = true := by simp [overallExpires, countDown, hx, ht]
  cases hst : s.tx.state with
  | idle => exact absurd hst hs
  | waitFc => simp only [segTick, hst, he, if_true]
  | sendCf => simp only [segTick, hst, he, if_true]

theorem segTick_of_idle {s : State} (hs : s.tx.state = .idle) : segTick s = .next s := by simp only [segTick, hs]

section Running

variable (hx : s.cfg.tXferTicks = 0 ∨ 1 < s.tx.total)
include hx

/-- R107: the last tick of the wait for Flow Control. -/
theorem segTick_wait_last (hs : s.tx.state = .waitFc) (ht : s.tx.tmr = 1) :
    segTick s = .next (raiseTx .flowControlTimeout s) := by
  simp only [segTick, hs, overallExpires_eq_false hx, Bool.false_eq_true, if_false, countOverall_eq_totalAfter, segTickWait,
    countDown, ht]
  rfl

/-- R107: any other tick of the wait. -/
theorem segTick_wait (hs : s.tx.state = .waitFc) (ht : 1 < s.tx.tmr) :
    segTick s = .next { s with tx := { s.tx with tmr := s.tx.tmr - 1, total := totalAfter s } } := by
  have hne : s.tx.tmr - 1 ≠ 0 := by omega
  simp only [segTick, hs, overallExpires_eq_false hx, Bool.false_eq_true, if_false, countOverall_eq_totalAfter, segTickWait,
    countDown, hne]

/-- R109: inside the gap only the counters fall. -/
theorem segTick_gap (hs : s.tx.state = .sendCf) (hg : 1 < s.tx.gap) :
    segTick s = .next { s with tx := { s.tx with gap := s.tx.gap - 1, total := totalAfter s } } := by
  have hne : s.tx.gap - 1 ≠ 0 := by omega
  simp only [segTick, hs, overallExpires_eq_false hx, Bool.false_eq_true, if_false, countOverall_eq_totalAfter, segTickSend,
    countDown, hne]

/-- R109, R111: when the gap ends the due frame is presented, and the link's answer decides. -/
theorem segTick_due (hs : s.tx.state = .sendCf) (hg : s.tx.gap ≤ 1) (hcap : 2 ≤ s.cfg.cap)
    (hoff : s.tx.off < s.tx.len) (hbuf : s.tx.buf.length = s.tx.len) :
    segTick s = if s.linkOk then .next (afterCf (min (s.cfg.cap - 1) (s.tx.len - s.tx.off)) (duePresented s))
      else .next (raiseTx .linkError (duePresented s)) := by
  have hz : s.tx.gap - 1 = 0 := by omega
  have hslice : ((s.tx.buf.drop s.tx.off).take (min (s.cfg.cap - 1) (s.tx.len - s.tx.off))).length =
      min (s.cfg.cap - 1) (s.tx.len - s.tx.off) := by
    rw [List.length_take, List.length_drop]; omega
  simp only [segTick, hs, overallExpires_eq_false hx, Bool.false_eq_true, if_false, countOverall_eq_totalAfter, segTickSend,
    countDown, hz, if_true, segEmitCf, bufSlice, cfBytes]
  rw [encCF_of_fits (by omega) (by omega)]
  simp only [duePresented, dueFrame, hs]

end Running

/-- R110: the last frame completes the send. -/
theorem afterCf_of_done {n : Nat} (h : s.tx.off + n = s.tx.len) : afterCf n s = endSend .ok s := if_pos h

/-- R110: in an unlimited block the gap follows. -/
theorem afterCf_of_unlimited {n : Nat} (h : s.tx.off + n ≠ s.tx.len) (hbs : s.tx.bs = 0) : afterCf n s =
    { s with tx := { s.tx with off := s.tx.off + n, sn := s.tx.sn + 1#4, gap := s.tx.st } } :=
  (if_neg h).trans (if_pos hbs)

/-- R110: the last frame of a block is followed by the wait for Flow Control. -/
theorem afterCf_of_block_end {n : Nat} (h : s.tx.off + n ≠ s.tx.len) (hbs : s.tx.bs ≠ 0) (hrem : s.tx.bsRem = 1) :
    afterCf n s = { s with tx := { s.tx with
      off := s.tx.off + n, sn := s.tx.sn + 1#4, bsRem := 0, state := .waitFc, tmr := s.cfg.nBsTicks } } := by
  rw [afterCf, hrem]
  exact (if_neg h).trans ((if_neg hbs).trans (if_pos rfl))

/-- R110: inside a block the gap follows and the counter falls. -/
theorem afterCf_of_inside {n : Nat} (h : s.tx.off + n ≠ s.tx.len) (hbs : s.tx.bs ≠ 0) (hrem : 1 < s.tx.bsRem) :
    afterCf n s = { s with tx := { s.tx with
      off := s.tx.off + n, sn := s.tx.sn + 1#4, bsRem := s.tx.bsRem - 1, gap := s.tx.st } } :=
  (if_neg h).trans ((if_neg hbs).trans (if_neg (by simp only [countDown]; omega)))

/-- R108: a tick that leaves the send in flight counts the overall timer. -/
theorem segTick_total_register {u : State} (h : segTick s = .next u) (hu : u.tx.state ≠ .idle) :
    u.tx.total = if 0 < s.cfg.tXferTicks then countDown s.tx.total else s.tx.total := by
  rcases segTick_cases h with ⟨hs, rfl⟩ | ⟨-, rfl⟩ | ⟨-, -, -, rfl⟩ | ⟨-, -, -, rfl⟩ | ⟨-, -, -, he⟩
  · exact absurd hs hu
  · exact absurd rfl hu
  · rfl
  · rfl
  · obtain ⟨d, -, ⟨-, rfl⟩ | ⟨-, rfl⟩⟩ := segEmitCf_cases he
    · rcases afterCf_cases _ (presentFrame d _) with ⟨-, e⟩ | ⟨-, -, e⟩ | ⟨-, -, -, e⟩ | ⟨-, -, -, e⟩
      · rw [e] at hu; exact absurd rfl hu
      · rw [e]; rfl
      · rw [e]; rfl
      · rw [e]; rfl
    · exact absurd rfl hu

end Tick

/-! ### The step on a tick -/

/-- R143: the receive half takes the tick after the transmit half. -/
theorem tick_eq_next_iff (s t : State) : tick s = .next t ↔ ∃ u, segTick s = .next u ∧ t = reaTick u := by
  unfold tick
  cases h : segTick s with
  | next u => simp [eq_comm]
  | fault r => simp
  | refused r => simp

theorem step_tick {s u : State} {ok : Bool} {rest : List Stimulus} (hl : s.cfg.Legal)
    (hi : s.input = ⟨.tick, ok⟩ :: rest) (hu : segTick { s with input := rest, linkOk := ok } = .next u) :
    step s = .next (reaTick u) :=
  (step_of_cons hl hi).trans ((tick_eq_next_iff _ _).2 ⟨u, hu, rfl⟩)

theorem reaTick_of_idle {s : State} (hs : s.rx.state = .idle) : reaTick s = s := by
  simp only [reaTick, hs]

/-- R132: the last tick of the wait for a Consecutive Frame. -/
theorem reaTick_last {s : State} (hs : s.rx.state = .awaitCf) (ht : s.rx.tmr = 1) :
    reaTick s = raiseRx .reassemblyTimeout s := by
  simp only [reaTick, hs, countDown, ht, Nat.sub_self, if_true]

/-- R132: any other tick of it. -/
theorem reaTick_counts {s : State} (hs : s.rx.state = .awaitCf) (ht : 1 < s.rx.tmr) :
    reaTick s = { s with rx := { s.rx with tmr := s.rx.tmr - 1 } } := by
  have hne : s.rx.tmr - 1 ≠ 0 := by omega
  simp only [reaTick, hs, countDown, hne, if_false]

/-! ### The obligations -/

/-- Settles O26: the frame is the Segmenter's, and ContinueToSend opens the block. -/
theorem continueToSendOpensABlock : Obligations.ContinueToSendOpensABlock := by
  unfold Obligations.ContinueToSendOpensABlock
  intro s bs st pad hw
  exact (exec_fcForm .cts _ s).trans (by rw [decodeFC_flowCode, deliver_segmenter hw]; rfl)

/-- Settles O27: the frame is the Segmenter's, and Wait reloads its timer. -/
theorem waitRestartsTheFlowControlTimer : Obligations.WaitRestartsTheFlowControlTimer := by
  unfold Obligations.WaitRestartsTheFlowControlTimer
  intro s bs st pad hw
  exact (exec_fcForm .wait _ s).trans (by rw [decodeFC_flowCode, deliver_segmenter hw]; rfl)

/-- Settles O33: the First Frame is presented, and the link's answer and the handshake decide what is recorded. -/
theorem sendOfALongPayloadStartsWithAFirstFrame : Obligations.SendOfALongPayloadStartsWithAFirstFrame := by
  unfold Obligations.SendOfALongPayloadStartsWithAFirstFrame
  intro s p ok rest hl hi hs hmin hmax ff sent
  rw [step_send hl hi hmax, segSend_first (s := takeStimulus ⟨.send p, ok⟩ rest s) hl hs hmin hmax]
  refine ⟨fun hok => ?_, fun hok hfc => ?_, fun hok hfc => ?_⟩
  · subst hok; rw [emit_presentFrame]; rfl
  · subst hok; simp only [txStarted, takeStimulus_cfg, hfc]; rfl
  · subst hok; simp only [txStarted, takeStimulus_cfg, hfc]; rfl

/-- Settles O34: a busy half takes the third branch of `SEND`. -/
theorem sendWhileBusyIsRefused : Obligations.SendWhileBusyIsRefused := by
  unfold Obligations.SendWhileBusyIsRefused
  intro s p ok rest hl hi hs hp
  rw [step_send hl hi hp]
  exact if_neg hs

/-- Settles O35: each abort is one rule of its own half, which an idle half ignores. -/
theorem abortsEndTheirOwnHalfOnly : Obligations.AbortsEndTheirOwnHalfOnly := by
  unfold Obligations.AbortsEndTheirOwnHalfOnly
  refine ⟨fun s ok rest hl hi => ⟨fun hs => ?_, fun hs => ?_⟩,
    fun s ok rest hl hi => ⟨fun hs => ?_, fun hs => ?_⟩⟩
  · rw [step_of_cons hl hi]; exact congrArg _ (if_neg hs)
  · rw [step_of_cons hl hi]; exact congrArg _ (if_pos hs)
  · rw [step_of_cons hl hi, handle, reaAbort, takeStimulus_rx, hs]; rfl
  · rw [step_of_cons hl hi, handle, reaAbort, takeStimulus_rx, hs]; rfl

/-- Settles O37: the two outcomes of the wait's tick. -/
theorem tickCountsDownTheFlowControlWait : Obligations.TickCountsDownTheFlowControlWait := by
  unfold Obligations.TickCountsDownTheFlowControlWait
  intro s ok rest hl hi hs hx
  exact ⟨fun ht => step_tick hl hi (segTick_wait_last hx hs ht), fun ht => step_tick hl hi (segTick_wait hx hs ht)⟩

/-- Settles O38: its last tick raises the timeout first; any other tick that leaves the send in flight counts it. -/
theorem overallTimerEndsTheSend : Obligations.OverallTimerEndsTheSend := by
  unfold Obligations.OverallTimerEndsTheSend
  intro s ok rest hl hi hs
  have hcount {t : State} (h : step s = .next t) (ht : t.tx.state ≠ .idle) :
      t.tx.total = if 0 < s.cfg.tXferTicks then countDown s.tx.total else s.tx.total := by
    rw [step_of_cons hl hi] at h
    obtain ⟨u, hu, rfl⟩ := (tick_eq_next_iff _ t).1 h
    rw [(reaTick_rxRule u).tx] at ht ⊢
    exact segTick_total_register (s := takeStimulus _ rest s) hu ht
  refine ⟨fun hx ht => step_tick hl hi (segTick_of_overall hs hx ht), fun hx _ t h ht => ?_, fun hx t h ht => ?_⟩
  · rw [hcount h ht, if_pos hx, countDown]
  · rw [hcount h ht, if_neg (by omega)]

section Sending

variable {s : State} {ok : Bool} {rest : List Stimulus} (h : Inv s) (hi : s.input = ⟨.tick, ok⟩ :: rest)
  (hs : s.tx.state = .sendCf) (hx : s.cfg.tXferTicks = 0 ∨ 1 < s.tx.total) (hg : s.tx.gap ≤ 1)
include h hi hs hx hg

/-- Under the invariants the due frame has a value, so the step is decided by the link's answer. -/
theorem step_due : step s =
    if ok then .next (reaTick (afterCf (min (s.cfg.cap - 1) (s.tx.len - s.tx.off))
        (duePresented { s with input := rest, linkOk := ok })))
      else .next (reaTick (raiseTx .linkError (duePresented { s with input := rest, linkOk := ok }))) := by
  have hne : s.tx.state ≠ .idle := by simp [hs]
  obtain ⟨⟨hcap, -⟩, -⟩ := h.legal
  have hdue := segTick_due (s := { s with input := rest, linkOk := ok }) hx hs hg (Nat.le_of_succ_le hcap)
    (h.tx.offset hne).2 (h.tx.buffer hne)
  cases ok with
  | true => exact step_tick h.legal hi hdue
  | false => exact step_tick h.legal hi hdue

end Sending

/-- Settles O39: inside the gap the counters fall; a due frame is presented, and whatever follows only adds to it. -/
theorem tickEmitsTheDueConsecutiveFrame : Obligations.TickEmitsTheDueConsecutiveFrame := by
  unfold Obligations.TickEmitsTheDueConsecutiveFrame
  intro s ok rest h hi hs hx total n cf
  refine ⟨fun hg => step_tick h.legal hi (segTick_gap hx hs hg), fun hg hok => ?_, fun hg hok => ?_⟩
  · rw [step_due h hi hs hx hg, hok, raiseTx, endSend]
    simp [duePresented, presentFrame, emit, clearTx, dueFrame, cf, n, TxHalf.reset]
  · refine ⟨_, (step_due h hi hs hx hg).trans (if_pos hok), ?_⟩
    exact (afterCf_txRule n (duePresented { s with input := rest, linkOk := ok })).out.trans (reaTick_rxRule _).out

/-- Settles O40: the four outcomes of an accepted frame. -/
theorem acceptedConsecutiveFrameMovesTheSendOn : Obligations.AcceptedConsecutiveFrameMovesTheSendOn := by
  unfold Obligations.AcceptedConsecutiveFrameMovesTheSendOn
  intro s rest h hi hs hx hg n sent
  rw [step_due h hi hs hx hg, if_pos rfl]
  refine ⟨fun hd => ?_, fun hd hbs => ?_, fun hd hbs hrem => ?_, fun hd hbs hrem => ?_⟩
  · exact congrArg _ (congrArg _ (afterCf_of_done hd))
  · exact congrArg _ (congrArg _ (afterCf_of_unlimited hd hbs))
  · exact congrArg _ (congrArg _ (afterCf_of_block_end hd hbs hrem))
  · exact congrArg _ (congrArg _ (afterCf_of_inside hd hbs hrem))

/-- Settles O41: the transmit half's tick leaves the receive half, which then takes the tick itself. -/
theorem tickCountsDownTheConsecutiveFrameWait : Obligations.TickCountsDownTheConsecutiveFrameWait := by
  unfold Obligations.TickCountsDownTheConsecutiveFrameWait
  intro s u ok rest hl hi hs hu
  have hrx : u.rx = s.rx := (segTick_txRule hu).rx
  rw [step_tick hl hi hu, ← hrx]
  rw [← hrx] at hs
  exact ⟨fun ht => congrArg _ (reaTick_last hs ht), fun ht => congrArg _ (reaTick_counts hs ht)⟩

end Machine
end Sys2Proof
end

section
/-!
SUPPORT. The whole machine: what every event keeps and that none stops it, and the obligations O36, O42 to O48.
-/

namespace Sys2Proof.Machine

/-! ### Status -/

theorem txBusy_eq_true_iff (s : State) : txBusy s = true ↔ s.tx.state ≠ .idle := by simp [txBusy]

theorem rxBusy_eq_true_iff (s : State) : rxBusy s = true ↔ s.rx.state ≠ .idle := by simp [rxBusy]

theorem quiescent_eq_true_iff (s : State) : quiescent s = true ↔ s.tx.state = .idle ∧ s.rx.state = .idle := by
  simp [quiescent, txBusy, rxBusy]

/-! ### Every event keeps the ports -/

theorem tick_samePorts {s t : State} (h : tick s = .next t) : SamePorts s t := by
  obtain ⟨u, hu, rfl⟩ := (tick_eq_next_iff s t).1 h
  exact (segTick_txRule hu).toSamePorts.trans (reaTick_rxRule u).toSamePorts

theorem resetHalves_samePorts (s : State) : SamePorts s (resetHalves s) := ⟨rfl, rfl, rfl, List.prefix_refl _⟩

/-- The dispatch answers a next state only inside what the ports allow. -/
theorem handle_linkRx {a : Addr} {d : List Byte} {s t : State} (h : handle (.linkRx a d) s = .next t) :
    d.length ≤ s.cfg.cap ∧ t = if a = s.cfg.rxAddr then deliver (codecDecode s.cfg.cap d) s else s := by
  unfold handle at h
  dsimp only at h
  split at h
  · rename_i hd
    rw [receiveFrame_eq hd] at h
    cases h
    exact ⟨hd, rfl⟩
  · cases h

theorem handle_send {p : List Byte} {s t : State} (h : handle (.send p) s = .next t) :
    PayloadFits p ∧ segSend p s = .next t := by
  unfold handle at h
  dsimp only at h
  split at h
  · exact ⟨‹_›, h⟩
  · cases h

/-- R49 item 1: whatever the event, the configuration and the ports stay and the transcript only grows. -/
theorem handle_samePorts {e : Event} {s t : State} (h : handle e s = .next t) : SamePorts s t := by
  cases e with
  | reset => cases h; exact resetHalves_samePorts s
  | send p => exact (segSend_txRule (handle_send h).2).toSamePorts
  | abortTx => cases h; exact (segAbort_txRule s).toSamePorts
  | abortRx => cases h; exact (reaAbort_rxRule s).toSamePorts
  | linkRx a d =>
    rw [(handle_linkRx h).2]
    split
    · exact deliver_samePorts _ s
    · exact .refl s
  | tick => exact tick_samePorts h

/-- What a step keeps, with or without an event. -/
theorem step_keeps {s t : State} (h : step s = .next t) : t.cfg = s.cfg ∧ t.input = s.input.tail ∧ s.out <+: t.out := by
  rcases step_cases h with ⟨hi, rfl⟩ | ⟨x, rest, hi, he⟩
  · exact ⟨rfl, by rw [hi]; rfl, List.prefix_refl _⟩
  · obtain ⟨hcfg, hinput, -, hout⟩ := handle_samePorts he
    exact ⟨hcfg, by rw [hinput, hi]; rfl, hout⟩

/-! ### Every event keeps the invariants -/

theorem Inv.of_txRule {s t : State} (h : Inv s) (hr : TxRule s t) (ht : TxInv t.cfg t.tx) : Inv t :=
  ⟨by rw [hr.cfg]; exact h.legal, ht, by rw [hr.cfg, hr.rx]; exact h.rx⟩

theorem Inv.of_rxRule {s t : State} (h : Inv s) (hr : RxRule s t) (ht : RxInv s.cfg t.rx) : Inv t :=
  ⟨by rw [hr.cfg]; exact h.legal, by rw [hr.cfg, hr.tx]; exact h.tx, by rw [hr.cfg]; exact ht⟩

theorem Inv.takeStimulus {s : State} (h : Inv s) (x : Stimulus) (rest : List Stimulus) : Inv (takeStimulus x rest s) :=
  ⟨h.legal, h.tx, h.rx⟩

theorem powerUp_inv {c : Config} (hl : c.Legal) : Inv (State.powerUp c) := ⟨hl, .ofReset c, .ofReset c⟩

/-- `ABORT_TX` keeps the transmit half's invariants. -/
theorem segAbort_txInv {s : State} (h : Inv s) : TxInv (segAbort s).cfg (segAbort s).tx := by
  unfold segAbort
  split
  · exact h.tx
  · exact .ofReset _

theorem handle_inv {e : Event} {s t : State} (h : Inv s) (ht : handle e s = .next t) : Inv t := by
  cases e with
  | reset => cases ht; exact ⟨h.legal, .ofReset _, .ofReset _⟩
  | send p =>
    obtain ⟨hp, ht⟩ := handle_send ht
    exact h.of_txRule (segSend_txRule ht) (segSend_txInv h hp ht)
  | abortTx => cases ht; exact h.of_txRule (segAbort_txRule s) (segAbort_txInv h)
  | abortRx => cases ht; exact h.of_rxRule (reaAbort_rxRule s) (reaAbort_rxInv h)
  | linkRx a d =>
    obtain ⟨hd, rfl⟩ := handle_linkRx ht
    split
    · exact deliver_inv h hd
    · exact h
  | tick =>
    obtain ⟨u, hu, rfl⟩ := (tick_eq_next_iff s t).1 ht
    have hui := h.of_txRule (segTick_txRule hu) (segTick_txInv h hu)
    exact hui.of_rxRule (reaTick_rxRule u) (reaTick_rxInv hui)

theorem step_inv {s t : State} (h : Inv s) (ht : step s = .next t) : Inv t := by
  rcases step_cases ht with ⟨-, rfl⟩ | ⟨x, rest, -, he⟩
  · exact h
  · exact handle_inv (h.takeStimulus x rest) he

/-! ### No event the ports allow stops the machine -/

/-- The formatters that `SEND` needs have a value for every payload the ports allow. -/
theorem segSend_total {s : State} {p : List Byte} (hl : s.cfg.Legal) (hp : PayloadFits p) :
    ∃ t, segSend p s = .next t := by
  by_cases hs : s.tx.state = .idle
  · by_cases hshort : p.length ≤ s.cfg.cap - 1
    · exact ⟨_, segSend_single hs hshort⟩
    · rw [segSend_first hl hs (by omega) hp]
      split <;> exact ⟨_, rfl⟩
  · exact ⟨_, if_neg hs⟩

theorem handle_total {e : Event} {s : State} (h : Inv s) (he : e.Admitted s.cfg.cap) : ∃ t, handle e s = .next t := by
  cases e with
  | reset => exact ⟨_, rfl⟩
  | send p =>
    obtain ⟨t, ht⟩ := segSend_total h.legal he
    exact ⟨t, (if_pos he).trans ht⟩
  | abortTx => exact ⟨_, rfl⟩
  | abortRx => exact ⟨_, rfl⟩
  | linkRx a d => exact ⟨_, (if_pos he).trans (receiveFrame_eq he a)⟩
  | tick =>
    obtain ⟨u, hu⟩ := segTick_total h
    exact ⟨_, (tick_eq_next_iff s _).2 ⟨u, hu, rfl⟩⟩

theorem step_total {s : State} (h : Inv s) (hadm : ∀ x ∈ s.input, x.event.Admitted s.cfg.cap) :
    ∃ t, step s = .next t := by
  cases hi : s.input with
  | nil => exact ⟨s, step_of_nil h.legal hi⟩
  | cons x rest =>
    rw [step_of_cons h.legal hi]
    exact handle_total (h.takeStimulus x rest) (hadm x (by rw [hi]; exact List.mem_cons_self))

/-! ### The obligations -/

/-- Settles O36: `RESET` clears both halves and emits nothing. -/
theorem resetEventClearsEveryRegisterInSilence : Obligations.ResetEventClearsEveryRegisterInSilence := by
  unfold Obligations.ResetEventClearsEveryRegisterInSilence
  intro s ok rest hl hi
  rw [step_of_cons hl hi]
  rfl

/-- Settles O42: each field is read off, and this hardware's configuration is legal. -/
theorem resetStateHoldsTheResetValues : Obligations.ResetStateHoldsTheResetValues := by
  unfold Obligations.ResetStateHoldsTheResetValues
  decide

/-- Settles O43: the two busy signals, and the three tables. -/
theorem statusSignalsAndCodes : Obligations.StatusSignalsAndCodes := by
  unfold Obligations.StatusSignalsAndCodes
  exact ⟨fun s => ⟨txBusy_eq_true_iff s, rxBusy_eq_true_iff s⟩, by decide, by decide, by decide⟩

/-- Settles O44: the invariants give the reset values, and each half's tick ignores an idle half. -/
theorem quiescentStateIsTheResetStateAndTickKeepsIt : Obligations.QuiescentStateIsTheResetStateAndTickKeepsIt := by
  unfold Obligations.QuiescentStateIsTheResetStateAndTickKeepsIt
  intro s h hq
  obtain ⟨htx, hrx⟩ := (quiescent_eq_true_iff s).1 hq
  refine ⟨h.tx.idle htx, h.rx.idle hrx, fun ok rest hi => ?_⟩
  exact (step_tick h.legal hi (segTick_of_idle htx)).trans (congrArg _ (reaTick_of_idle hrx))

/-- Settles O45: both halves stand at their reset values. -/
theorem invariantsHoldAtReset : Obligations.InvariantsHoldAtReset := by
  unfold Obligations.InvariantsHoldAtReset
  exact ⟨fun c hl => powerUp_inv hl, powerUp_inv (by decide)⟩

/-- Settles O46: a step stutters or handles an event, and each event's rules keep the invariants of their half. -/
theorem everyStepKeepsTheInvariants : Obligations.EveryStepKeepsTheInvariants := by
  unfold Obligations.EveryStepKeepsTheInvariants
  exact fun s t h ht => step_inv h ht

/-- Settles O47, by induction on the number of steps: each answers, keeps the invariants and takes one event. -/
theorem admittedEventsNeverStopTheMachine : Obligations.AdmittedEventsNeverStopTheMachine := by
  unfold Obligations.AdmittedEventsNeverStopTheMachine
  intro k
  induction k with
  | zero => exact fun s h _ => ⟨s, rfl, h, rfl, rfl⟩
  | succ k ih =>
    intro s h hadm
    obtain ⟨u, hu⟩ := step_total h hadm
    obtain ⟨hcfg, hinput, -⟩ := step_keeps hu
    have hadm' : ∀ x ∈ u.input, x.event.Admitted u.cfg.cap := fun x hx => by
      rw [hinput] at hx
      rw [hcfg]
      exact hadm x (List.mem_of_mem_tail hx)
    obtain ⟨t, hrun, hinv, hcfg', hinput'⟩ := ih u (step_inv h hu) hadm'
    refine ⟨t, (runFor_succ k hu).trans hrun, hinv, hcfg'.trans hcfg, ?_⟩
    rw [hinput', hinput, List.drop_tail]

/-- Settles O48: what every event keeps, and the stutter. -/
theorem stepTakesOneEventAndKeepsTheConfiguration : Obligations.StepTakesOneEventAndKeepsTheConfiguration := by
  unfold Obligations.StepTakesOneEventAndKeepsTheConfiguration
  intro s t h
  obtain ⟨hcfg, hinput, hout⟩ := step_keeps h
  refine ⟨hcfg, hinput, hout, fun hi => ?_⟩
  rw [step_of_nil (legal_of_step h) hi] at h
  cases h
  rfl

end Sys2Proof.Machine
end

section
/-!
SUPPORT. What a step emits: the actions each half may add, rule by rule, with the account of the transfers they end, and
the obligations O49 to O51, O53 and O54.
-/

namespace Sys2Proof.Machine

/-! ### The actions of each half -/

/-- A frame of the Segmenter: it fits, and it is no Flow Control frame. -/
def DataFrame (cap : Nat) (d : List Byte) : Prop :=
  1 ≤ d.length ∧ d.length ≤ cap ∧ d.head?.map hiNibble ≠ some 3#4

/-- A Flow Control frame of the Reassembler (R122, R123, R128). -/
def FlowFrame (c : Config) (d : List Byte) : Prop :=
  d = encFC .cts c.rxBs c.rxStmin ∨ d = encFC .ovflw c.rxBs c.rxStmin

/-- What a send may end with (R114): an error of the transmit side, or none. -/
def SendReason (r : TxResult) : Prop :=
  ∀ e, r = .err e → e ∈ [Error.flowControlTimeout, .peerOverflow, .linkError]

/-- The errors a reception may end with or report (R135). -/
def rxErrors : List Error :=
  [.malformedFrame, .unsupportedFrameType, .sequenceError, .reassemblyTimeout, .protocolViolation, .linkError]

/-- The payloads a step may deliver: a Single Frame's, or as many bytes as the First Frame declared. -/
def Deliverable (r : RxHalf) (p : List Byte) : Prop := p.length ≤ 15 ∨ (r.state = .awaitCf ∧ p.length = r.len)

/-- What a rule of the Segmenter may emit from the half `h`. -/
def SegAction (c : Config) (h : TxHalf) : Action → Prop
  | .linkTx a d => a = c.txAddr ∧ DataFrame c.cap d ∧ h.state ≠ .waitFc
  | .txDone r => SendReason r
  | .sendRefused => True
  | .rxPayload _ | .rxError _ | .rxAborted => False

/-- What a rule of the Reassembler may emit from the half `r`. -/
def ReaAction (c : Config) (r : RxHalf) : Action → Prop
  | .linkTx a d => a = c.txAddr ∧ FlowFrame c d ∧ c.fcEn = true
  | .rxPayload p => Deliverable r p
  | .rxError e => e ∈ rxErrors
  | .rxAborted => True
  | .txDone _ | .sendRefused => False

/-- The actions `as` of a rule of the Segmenter, where `owed` says whether a send is in flight or accepted before it and
`after` whether one is in flight after it. -/
structure SegActs (c : Config) (h : TxHalf) (owed after : Bool) (as : List Action) : Prop where
  allowed : ∀ x ∈ as, SegAction c h x
  frames : as.countP Action.isFrame ≤ 1
  account : as.countP Action.isTxDone + after.toNat = owed.toNat

/-- The actions `as` of a rule of the Reassembler, with a reception in progress `before` and `after` it. -/
structure ReaActs (c : Config) (r : RxHalf) (before after : Bool) (as : List Action) : Prop where
  allowed : ∀ x ∈ as, ReaAction c r x
  frames : as.countP Action.isFrame ≤ 1
  account : as.countP Action.isRxReport + after.toNat ≤ 1 ∧
    (before = true → as.countP Action.isRxReport + after.toNat = 1)

theorem isRxReport_of_segAction {c : Config} {h : TxHalf} {x : Action} (hx : SegAction c h x) :
    x.isRxReport = false := by
  cases x with
  | linkTx => rfl
  | txDone => rfl
  | sendRefused => rfl
  | rxPayload => exact hx.elim
  | rxError => exact hx.elim
  | rxAborted => exact hx.elim

theorem isTxReport_of_reaAction {c : Config} {r : RxHalf} {x : Action} (hx : ReaAction c r x) :
    x.isTxReport = false := by
  cases x with
  | linkTx => rfl
  | rxPayload => rfl
  | rxError => rfl
  | rxAborted => rfl
  | txDone => exact hx.elim
  | sendRefused => exact hx.elim

theorem isTxDone_of_isTxReport {x : Action} (hx : x.isTxReport = false) : x.isTxDone = false := by
  cases x with
  | txDone => cases hx
  | linkTx | sendRefused | rxPayload | rxError | rxAborted => rfl

namespace SegActs

variable {c : Config} {h : TxHalf} {owed after : Bool}

theorem silent (hb : after = owed) : SegActs c h owed after [] :=
  ⟨by simp, Nat.zero_le _, by subst hb; simp⟩

theorem refused (ho : owed = true) (ha : after = true) : SegActs c h owed after [.sendRefused] :=
  ⟨by simp [SegAction], by decide, by subst ho ha; rfl⟩

theorem frame {d : List Byte} (hd : DataFrame c.cap d) (hs : h.state ≠ .waitFc) (ho : owed = true)
    (ha : after = true) : SegActs c h owed after [.linkTx c.txAddr d] :=
  ⟨by simp [SegAction, hd, hs], by simp [Action.isFrame], by subst ho ha; rfl⟩

theorem answered {d : List Byte} {r : TxResult} (hd : DataFrame c.cap d) (hs : h.state ≠ .waitFc)
    (hr : SendReason r) (ho : owed = true) (ha : after = false) :
    SegActs c h owed after [.linkTx c.txAddr d, .txDone r] :=
  ⟨by simp [SegAction, hd, hs, hr], Nat.le_refl 1, by subst ho ha; rfl⟩

theorem ended {r : TxResult} (hr : SendReason r) (ho : owed = true) (ha : after = false) :
    SegActs c h owed after [.txDone r] :=
  ⟨by simp [SegAction, hr], by simp [Action.isFrame], by subst ho ha; rfl⟩

end SegActs

namespace ReaActs

variable {c : Config} {r : RxHalf} {before after : Bool}

theorem silent (h : before = true → after = true) : ReaActs c r before after [] :=
  ⟨by simp, Nat.zero_le _, by simpa using after.toNat_le, fun hb => by simp [h hb]⟩

theorem reported {x : Action} (hx : ReaAction c r x) (hrep : x.isRxReport = true) (ha : after = false) :
    ReaActs c r before after [x] := by
  subst ha
  exact ⟨by simpa using hx, List.countP_le_length, by simp [hrep]⟩

theorem flow {d : List Byte} (hd : FlowFrame c d) (hfc : c.fcEn = true) (h : before = true → after = true) :
    ReaActs c r before after [.linkTx c.txAddr d] :=
  ⟨by simp [ReaAction, hd, hfc], by simp [Action.isFrame], by simpa [Action.isRxReport] using after.toNat_le,
    fun hb => by simp [Action.isRxReport, h hb]⟩

theorem flowRefused {d : List Byte} (hd : FlowFrame c d) (hfc : c.fcEn = true) (ha : after = false) :
    ReaActs c r before after [.linkTx c.txAddr d, .rxError .linkError] := by
  subst ha
  exact ⟨by simp [ReaAction, rxErrors, hd, hfc], Nat.le_refl 1, by simp [Action.isRxReport]⟩

end ReaActs

theorem sendReason_ok : SendReason .ok := nofun

theorem sendReason_aborted : SendReason .aborted := nofun

theorem sendReason_err {e : Error} (he : e ∈ [Error.flowControlTimeout, .peerOverflow, .linkError]) :
    SendReason (.err e) := by
  rintro _ ⟨⟩
  exact he

/-! ### The frames the formatters give the Segmenter -/

theorem dataFrame_cons {cap : Nat} {t lo : Nibble} (ht : t ≠ 3#4) {p : List Byte} (hp : 1 + p.length ≤ cap) :
    DataFrame cap ((t ++ lo) :: p) :=
  ⟨by simp, by rw [List.length_cons]; omega, by simpa using ht⟩

theorem dataFrame_encSF {c : Config} (hl : c.Legal) {p d : List Byte} (h : encSF c.cap p = some d) :
    DataFrame c.cap d := by
  obtain ⟨⟨hmin, hmax⟩, -⟩ := hl
  obtain ⟨hp, rfl⟩ := (encSF_eq_some_iff ..).1 h
  rw [sf_header _ (by omega)]
  exact dataFrame_cons (by decide) (by omega)

theorem dataFrame_encFF {c : Config} (hl : c.Legal) {len : Nat} {chunk d : List Byte}
    (h : encFF c.cap len chunk = some d) : DataFrame c.cap d := by
  obtain ⟨⟨hmin, -⟩, -⟩ := hl
  obtain ⟨⟨-, hlen, hchunk⟩, rfl⟩ := (encFF_eq_some_iff ..).1 h
  rw [Nat.shiftRight_eq_div_pow, ff_header _ (by rw [maxPayload] at hlen; omega)]
  exact dataFrame_cons (by decide) (by rw [List.length_cons]; omega)

theorem dataFrame_encCF {c : Config} (hl : c.Legal) {sn : Nibble} {p d : List Byte} (h : encCF c.cap sn p = some d) :
    DataFrame c.cap d := by
  obtain ⟨⟨hmin, -⟩, -⟩ := hl
  obtain ⟨⟨-, hp⟩, rfl⟩ := (encCF_eq_some_iff ..).1 h
  rw [cf_header]
  exact dataFrame_cons (by decide) (by omega)

/-! ### The Segmenter, rule by rule -/

theorem txBusy_of_idle {s : State} (hs : s.tx.state = .idle) : txBusy s = false := by simp [txBusy, hs]

theorem txBusy_of_ne_idle {s : State} (hs : s.tx.state ≠ .idle) : txBusy s = true := (txBusy_eq_true_iff s).2 hs

theorem segSendSingle_acts {p : List Byte} {s t : State} (hl : s.cfg.Legal) (hs : s.tx.state = .idle)
    (h : segSendSingle p s = .next t) : ∃ as, t.out = s.out ++ as ∧ SegActs s.cfg s.tx true (txBusy t) as := by
  have hreason : SendReason (if s.linkOk then .ok else .err .linkError) := by
    cases s.linkOk
    · exact sendReason_err (by decide)
    · exact sendReason_ok
  unfold segSendSingle at h
  split at h
  · cases h
  · rename_i d hd
    cases h
    rw [emit_presentFrame]
    exact ⟨_, rfl, .answered (dataFrame_encSF hl hd) (by simp [hs]) hreason rfl (txBusy_of_idle hs)⟩

theorem txStarted_state_ne_idle (c : Config) (p : List Byte) (h : TxHalf) : (txStarted c p h).state ≠ .idle := by
  unfold txStarted
  cases c.fcEn <;> simp

theorem segSendFirst_acts {p : List Byte} {s t : State} (hl : s.cfg.Legal) (hs : s.tx.state = .idle)
    (h : segSendFirst p s = .next t) : ∃ as, t.out = s.out ++ as ∧ SegActs s.cfg s.tx true (txBusy t) as := by
  have hw : s.tx.state ≠ .waitFc := by simp [hs]
  unfold segSendFirst at h
  split at h
  · cases h
  · rename_i d hd
    have hd := dataFrame_encFF hl hd
    split at h <;> cases h
    · exact ⟨_, rfl, .frame hd hw rfl (txBusy_of_ne_idle (txStarted_state_ne_idle _ _ _))⟩
    · rw [emit_presentFrame]
      exact ⟨_, rfl, .answered hd hw (sendReason_err (by decide)) rfl (txBusy_of_idle hs)⟩

/-- R101 to R103: a `SEND` is owed an answer whether it is accepted or one is in flight already. -/
theorem segSend_acts {p : List Byte} {s t : State} (hl : s.cfg.Legal) (h : segSend p s = .next t) :
    ∃ as, t.out = s.out ++ as ∧ SegActs s.cfg s.tx true (txBusy t) as := by
  unfold segSend at h
  split at h
  · rename_i hs
    split at h
    · exact segSendSingle_acts hl hs h
    · exact segSendFirst_acts hl hs h
  · rename_i hs
    cases h
    exact ⟨_, rfl, .refused rfl (txBusy_of_ne_idle hs)⟩

theorem segAbort_acts (s : State) :
    ∃ as, (segAbort s).out = s.out ++ as ∧ SegActs s.cfg s.tx (txBusy s) (txBusy (segAbort s)) as := by
  unfold segAbort
  split
  · exact ⟨[], by simp, .silent rfl⟩
  · rename_i hs
    exact ⟨_, rfl, .ended sendReason_aborted (txBusy_of_ne_idle hs) rfl⟩

theorem segFlow_acts {s : State} (hw : s.tx.state = .waitFc) (fs : FlowStatus) (bs st : Byte) :
    ∃ as, (segFlow fs bs st s).out = s.out ++ as ∧
      SegActs s.cfg s.tx (txBusy s) (txBusy (segFlow fs bs st s)) as := by
  have hb : txBusy s = true := txBusy_of_ne_idle (by simp [hw])
  cases fs with
  | cts => exact ⟨[], by simp [segFlow, segContinue], .silent hb.symm⟩
  | wait => exact ⟨[], by simp [segFlow, segWait], .silent rfl⟩
  | ovflw => exact ⟨_, rfl, .ended (sendReason_err (by decide)) hb rfl⟩

/-- R110: after an accepted frame the send is done, or is still in flight with nothing more emitted. -/
theorem afterCf_acts (n : Nat) {s : State} (hs : s.tx.state = .sendCf) :
    ((afterCf n s).out = s.out ++ [.txDone .ok] ∧ txBusy (afterCf n s) = false) ∨
    ((afterCf n s).out = s.out ∧ txBusy (afterCf n s) = true) := by
  have hb : txBusy s = true := txBusy_of_ne_idle (by simp [hs])
  rcases afterCf_cases n s with ⟨-, e⟩ | ⟨-, -, e⟩ | ⟨-, -, -, e⟩ | ⟨-, -, -, e⟩
  · exact .inl (by rw [e]; exact ⟨rfl, rfl⟩)
  · exact .inr (by rw [e]; exact ⟨rfl, hb⟩)
  · exact .inr (by rw [e]; exact ⟨rfl, rfl⟩)
  · exact .inr (by rw [e]; exact ⟨rfl, hb⟩)

theorem segEmitCf_acts {s t : State} (h : segEmitCf s = .next t) (hl : s.cfg.Legal) (hs : s.tx.state = .sendCf) :
    ∃ as, t.out = s.out ++ as ∧ SegActs s.cfg s.tx true (txBusy t) as := by
  have hw : s.tx.state ≠ .waitFc := by simp [hs]
  obtain ⟨d, hd, ⟨-, rfl⟩ | ⟨-, rfl⟩⟩ := segEmitCf_cases h
  · have hd := dataFrame_encCF hl hd
    rcases afterCf_acts (cfBytes s.cfg.cap s.tx) (s := presentFrame d s) hs with ⟨hout, hb⟩ | ⟨hout, hb⟩
    · exact ⟨[.linkTx s.cfg.txAddr d, .txDone .ok], by simp [hout], .answered hd hw sendReason_ok rfl hb⟩
    · exact ⟨[.linkTx s.cfg.txAddr d], hout, .frame hd hw rfl hb⟩
  · exact ⟨[.linkTx s.cfg.txAddr d, .txDone (.err .linkError)], by simp,
      .answered (dataFrame_encCF hl hd) hw (sendReason_err (by decide)) rfl rfl⟩

theorem segTick_acts {s t : State} (hl : s.cfg.Legal) (h : segTick s = .next t) :
    ∃ as, t.out = s.out ++ as ∧ SegActs s.cfg s.tx (txBusy s) (txBusy t) as := by
  rcases segTick_cases h with ⟨-, rfl⟩ | ⟨hs, rfl⟩ | ⟨hs, -, -, rfl⟩ | ⟨hs, -, -, rfl⟩ | ⟨hs, -, -, he⟩
  · exact ⟨[], by simp, .silent rfl⟩
  · exact ⟨_, rfl, .ended (sendReason_err (by decide)) (txBusy_of_ne_idle hs) rfl⟩
  · exact ⟨[], by simp, .silent rfl⟩
  · exact ⟨[], by simp, .silent rfl⟩
  · obtain ⟨as, hout, ⟨hallowed, hframes, haccount⟩⟩ := segEmitCf_acts he hl hs
    rw [txBusy_of_ne_idle (s := s) (by simp [hs])]
    exact ⟨as, hout, fun x hx => by simpa [SegAction] using hallowed x hx, hframes, haccount⟩

/-! ### The Reassembler, rule by rule -/

theorem rxBusy_of_idle {s : State} (hs : s.rx.state = .idle) : rxBusy s = false := by simp [rxBusy, hs]

theorem rxBusy_of_awaitCf {s : State} (hs : s.rx.state = .awaitCf) : rxBusy s = true := by simp [rxBusy, hs]

theorem flowFrame_cts (c : Config) : FlowFrame c (encFC .cts c.rxBs c.rxStmin) := .inl rfl

theorem flowFrame_ovflw (c : Config) : FlowFrame c (encFC .ovflw c.rxBs c.rxStmin) := .inr rfl

theorem raiseRx_acts {e : Error} (he : e ∈ rxErrors) (s : State) (before : Bool) :
    ∃ bs, (raiseRx e s).out = s.out ++ bs ∧ ReaActs s.cfg s.rx before (rxBusy (raiseRx e s)) bs :=
  ⟨_, rfl, .reported he rfl rfl⟩

theorem reaFirst_acts (len : Nat) (chunk : List Byte) (s : State) :
    ∃ bs, (reaFirst len chunk s).out = s.out ++ bs ∧
      ReaActs s.cfg s.rx (rxBusy s) (rxBusy (reaFirst len chunk s)) bs := by
  rcases reaFirst_cases len chunk s with ⟨-, e⟩ | ⟨hs, -, ⟨hfc, -, e⟩ | ⟨hfc, -, e⟩ | ⟨-, e⟩⟩ |
    ⟨hs, -, ⟨hfc, -, e⟩ | ⟨hfc, -, e⟩ | ⟨-, e⟩⟩
  · rw [e]; exact raiseRx_acts (by decide) s _
  · rw [e]; exact ⟨_, rfl, .flow (flowFrame_cts _) hfc fun _ => rfl⟩
  · rw [e, presentFlow, emit_presentFrame]
    exact ⟨_, rfl, .flowRefused (flowFrame_cts _) hfc (rxBusy_of_idle hs)⟩
  · rw [e]; exact ⟨[], by simp, .silent fun _ => rfl⟩
  · rw [e]; exact ⟨_, rfl, .flow (flowFrame_ovflw _) hfc id⟩
  · rw [e, presentFlow, emit_presentFrame]
    exact ⟨_, rfl, .flowRefused (flowFrame_ovflw _) hfc (rxBusy_of_idle hs)⟩
  · rw [e]; exact ⟨[], by simp, .silent id⟩

/-- R128, from the half `r` the frame found. -/
theorem reaBlockFc_acts {s : State} (hs : s.rx.state = .awaitCf) (r : RxHalf) (before : Bool) :
    ∃ bs, (reaBlockFc s).out = s.out ++ bs ∧ ReaActs s.cfg r before (rxBusy (reaBlockFc s)) bs := by
  have hb : rxBusy s = true := rxBusy_of_awaitCf hs
  rcases reaBlockFc_cases s with ⟨-, e⟩ | ⟨hfc, -, ⟨-, e⟩ | ⟨-, e⟩⟩ | ⟨-, -, e⟩
  · rw [e]; exact ⟨[], by simp, .silent fun _ => hb⟩
  · rw [e]; exact ⟨_, rfl, .flow (flowFrame_cts _) hfc.1 fun _ => hb⟩
  · rw [e, presentFlow, raiseRx_presentFrame]; exact ⟨_, rfl, .flowRefused (flowFrame_cts _) hfc.1 rfl⟩
  · rw [e]; exact ⟨[], by simp, .silent fun _ => hb⟩

theorem reaConsecutive_acts (sn : Nibble) (p : List Byte) (s : State) :
    ∃ bs, (reaConsecutive sn p s).out = s.out ++ bs ∧
      ReaActs s.cfg s.rx (rxBusy s) (rxBusy (reaConsecutive sn p s)) bs := by
  cases hs : s.rx.state with
  | idle =>
    rw [show reaConsecutive sn p s = s by simp only [reaConsecutive, hs]]
    exact ⟨[], by simp, .silent id⟩
  | awaitCf =>
    by_cases hn : sn = s.rx.sn
    · subst hn
      rw [reaConsecutive_of_sn hs]
      rcases reaExpected_cases p s with ⟨hfull, e⟩ | ⟨-, e⟩
      · rw [e]; exact ⟨_, rfl, .reported (x := .rxPayload _) (.inr ⟨hs, hfull⟩) rfl rfl⟩
      · rw [e]
        exact reaBlockFc_acts (by exact hs) s.rx _
    · rw [reaConsecutive_of_ne_sn hs hn]; exact raiseRx_acts (by decide) s _

theorem codecError_mem_rxErrors (e : CodecError) : codecError e ∈ rxErrors := by cases e <;> decide

/-- Every verdict that is not the Segmenter's. -/
theorem deliver_reaActs {v : Verdict} {s : State} (hseg : ¬ ForSegmenter v s) (hv : ∀ p, v = .sf p → p.length ≤ 15) :
    ∃ bs, (deliver v s).out = s.out ++ bs ∧ ReaActs s.cfg s.rx (rxBusy s) (rxBusy (deliver v s)) bs := by
  cases v with
  | sf p =>
    rw [deliver]
    cases hs : s.rx.state with
    | idle =>
      rw [reaSingle_of_idle hs]
      exact ⟨_, rfl, .reported (x := .rxPayload p) (.inl (hv p rfl)) rfl (rxBusy_of_idle hs)⟩
    | awaitCf =>
      rw [show reaSingle p s = raiseRx .protocolViolation s by simp only [reaSingle, hs]]
      exact raiseRx_acts (by decide) s _
  | ff len chunk => exact reaFirst_acts len chunk s
  | cf sn p => exact reaConsecutive_acts sn p s
  | fc fs bs st =>
    rw [deliver_fc_of_not_waiting fun hw => hseg ⟨hw, fs, bs, st, rfl⟩]
    cases hs : s.rx.state with
    | idle =>
      rw [show reaFlow s = s by simp only [reaFlow, hs]]
      exact ⟨[], by simp, .silent id⟩
    | awaitCf =>
      rw [show reaFlow s = raiseRx .protocolViolation s by simp only [reaFlow, hs]]
      exact raiseRx_acts (by decide) s _
  | err e =>
    rw [deliver_err]
    split
    · exact ⟨_, rfl, .reported (x := .rxError _) (codecError_mem_rxErrors e) rfl (rxBusy_of_idle ‹_›)⟩
    · exact raiseRx_acts (by decide) s _

/-- R134: `ABORT_RX` emits no frame. -/
theorem reaAbort_acts (s : State) :
    ∃ bs, (reaAbort s).out = s.out ++ bs ∧ ReaActs s.cfg s.rx (rxBusy s) (rxBusy (reaAbort s)) bs ∧
      ∀ x ∈ bs, x.isFrame = false := by
  unfold reaAbort
  split
  · exact ⟨[], by simp, .silent id, by simp⟩
  · exact ⟨_, rfl, .reported (x := .rxAborted) trivial rfl rfl, by simp [Action.isFrame]⟩

/-- R132: the receive half's tick emits no frame. -/
theorem reaTick_acts (s : State) :
    ∃ bs, (reaTick s).out = s.out ++ bs ∧ ReaActs s.cfg s.rx (rxBusy s) (rxBusy (reaTick s)) bs ∧
      ∀ x ∈ bs, x.isFrame = false := by
  have htimeout : Error.reassemblyTimeout ∈ rxErrors := by decide
  rcases reaTick_cases s with ⟨-, e⟩ | ⟨-, -, e⟩ | ⟨-, -, e⟩
  · rw [e]; exact ⟨[], by simp, .silent id, by simp⟩
  · rw [e]; exact ⟨_, rfl, .reported (x := .rxError _) htimeout rfl rfl, by simp [Action.isFrame]⟩
  · rw [e]; exact ⟨[], by simp, .silent id, by simp⟩

/-! ### The step -/

/-- R81: a Single Frame carries at most 15 bytes. -/
theorem codecDecode_sf_length {cap : Nat} {d p : List Byte} (h : codecDecode cap d = .sf p) : p.length ≤ 15 := by
  unfold codecDecode decodeSF decodeFF decodeCF decodeFC decodeUnsupported at h
  repeat' split at h
  all_goals cases h
  rename_i b tail _ _
  have hlo := (loNibble b).isLt
  rw [List.length_take]
  omega

/-- What a step that takes the event `e` emits: first the transmit half's actions, then the receive half's, and a frame
of at most one of them. -/
structure EventActs (e : Event) (s t : State) (as bs : List Action) : Prop where
  tx : SegActs s.cfg s.tx (txBusy s || e.isSend) (txBusy t) as
  rx : ReaActs s.cfg s.rx (rxBusy s) (rxBusy t) bs
  oneHalf : as = [] ∨ ∀ x ∈ bs, x.isFrame = false

theorem EventActs.of_txRule {e : Event} {s t : State} {as : List Action} (hr : TxRule s t)
    (h : SegActs s.cfg s.tx (txBusy s || e.isSend) (txBusy t) as) : EventActs e s t as [] :=
  ⟨h, .silent fun hb => by rw [rxBusy, hr.rx]; exact hb, .inr (by simp)⟩

theorem EventActs.of_rxRule {e : Event} {s t : State} {bs : List Action} (he : e.isSend = false) (hr : RxRule s t)
    (h : ReaActs s.cfg s.rx (rxBusy s) (rxBusy t) bs) : EventActs e s t [] bs := by
  have hb : txBusy t = txBusy s := by rw [txBusy, hr.tx]; rfl
  exact ⟨.silent (by rw [he, Bool.or_false, hb]), h, .inl rfl⟩

theorem handle_acts {e : Event} {s t : State} (hl : s.cfg.Legal) (he : e ≠ .reset) (h : handle e s = .next t) :
    ∃ as bs, t.out = s.out ++ (as ++ bs) ∧ EventActs e s t as bs := by
  cases e with
  | reset => exact absurd rfl he
  | send p =>
    have h := (handle_send h).2
    obtain ⟨as, hout, hacts⟩ := segSend_acts hl h
    exact ⟨as, [], by simpa using hout, .of_txRule (segSend_txRule h) (by simpa [Event.isSend] using hacts)⟩
  | abortTx =>
    cases h
    obtain ⟨as, hout, hacts⟩ := segAbort_acts s
    exact ⟨as, [], by simpa using hout, .of_txRule (segAbort_txRule s) (by simpa [Event.isSend] using hacts)⟩
  | abortRx =>
    cases h
    obtain ⟨bs, hout, hacts, -⟩ := reaAbort_acts s
    exact ⟨[], bs, hout, .of_rxRule rfl (reaAbort_rxRule s) hacts⟩
  | linkRx a d =>
    obtain ⟨-, rfl⟩ := handle_linkRx h
    split
    · by_cases hseg : ForSegmenter (codecDecode s.cfg.cap d) s
      · have hr := deliver_txRule hseg
        obtain ⟨hw, fs, bs, st, hv⟩ := hseg
        rw [hv, deliver_segmenter hw] at hr ⊢
        obtain ⟨as, hout, hacts⟩ := segFlow_acts hw fs bs st
        exact ⟨as, [], by simpa using hout, .of_txRule hr (by simpa [Event.isSend] using hacts)⟩
      · obtain ⟨bs, hout, hacts⟩ := deliver_reaActs hseg fun p hp => codecDecode_sf_length hp
        exact ⟨[], bs, hout, .of_rxRule rfl (deliver_rxRule hseg) hacts⟩
    · exact ⟨[], [], by simp, .of_rxRule rfl (.refl s) (.silent id)⟩
  | tick =>
    obtain ⟨u, hu, rfl⟩ := (tick_eq_next_iff s t).1 h
    obtain ⟨as, hout, hacts⟩ := segTick_acts hl hu
    obtain ⟨bs, hout', hacts', hno⟩ := reaTick_acts u
    have hr := segTick_txRule hu
    rw [hr.cfg, hr.rx, show rxBusy u = rxBusy s by rw [rxBusy, hr.rx]; rfl] at hacts'
    refine ⟨as, bs, by rw [hout', hout, List.append_assoc], ?_, hacts', .inr hno⟩
    rw [show txBusy (reaTick u) = txBusy u by rw [txBusy, (reaTick_rxRule u).tx]; rfl]
    simpa [Event.isSend] using hacts

theorem emitted_of_out {s t : State} {l : List Action} (h : t.out = s.out ++ l) : emitted s t = l := by
  rw [emitted, h, List.drop_left]

/-- What a step emits, when it takes an event other than `RESET`. -/
theorem step_acts {s t : State} {x : Stimulus} {rest : List Stimulus} (hi : s.input = x :: rest) (hx : x.event ≠ .reset)
    (h : step s = .next t) : ∃ as bs, emitted s t = as ++ bs ∧ EventActs x.event s t as bs := by
  have hl := legal_of_step h
  rw [step_of_cons hl hi] at h
  obtain ⟨as, bs, hout, ⟨htx, hrx, hone⟩⟩ := handle_acts (s := takeStimulus x rest s) hl hx h
  exact ⟨as, bs, emitted_of_out hout, htx, hrx, hone⟩

/-- `RESET` and the stutter emit nothing. -/
theorem step_emits {s t : State} (h : step s = .next t) :
    emitted s t = [] ∨ ∃ e as bs, emitted s t = as ++ bs ∧ EventActs e s t as bs := by
  rcases step_cases h with ⟨-, rfl⟩ | ⟨x, rest, hi, he⟩
  · exact .inl (emitted_of_out (by simp))
  · by_cases hx : x.event = .reset
    · rw [hx] at he
      cases he
      exact .inl (emitted_of_out (by simp))
    · exact .inr ⟨x.event, step_acts hi hx h⟩

/-- Every emitted action is one of its half's. -/
theorem mem_emitted {s t : State} (h : step s = .next t) {a : Action} (ha : a ∈ emitted s t) :
    SegAction s.cfg s.tx a ∨ ReaAction s.cfg s.rx a := by
  rcases step_emits h with hnone | ⟨e, as, bs, hemit, hacts⟩
  · rw [hnone] at ha; cases ha
  · rw [hemit] at ha
    rcases List.mem_append.1 ha with ha | ha
    · exact .inl (hacts.tx.allowed a ha)
    · exact .inr (hacts.rx.allowed a ha)

theorem step_frames_le_one {s t : State} (h : step s = .next t) : (emitted s t).countP Action.isFrame ≤ 1 := by
  rcases step_emits h with hnone | ⟨e, as, bs, hemit, hacts⟩
  · rw [hnone]; exact Nat.zero_le _
  · rw [hemit]
    rcases hacts.oneHalf with rfl | hno
    · exact hacts.rx.frames
    · have hbs : bs.countP Action.isFrame = 0 := List.countP_eq_zero.2 fun x hx => by simp [hno x hx]
      rw [List.countP_append, hbs]
      exact hacts.tx.frames

/-! ### Entering `TX_SEND_CF` -/

/-- R104, R142: from `TX_WAIT_FC` only a ContinueToSend from `RX_ADDR` leads to `TX_SEND_CF`. -/
theorem handle_enters_sendCf {e : Event} {s t : State} (hw : s.tx.state = .waitFc) (h : handle e s = .next t)
    (ht : t.tx.state = .sendCf) :
    ∃ d bs st, e = .linkRx s.cfg.rxAddr d ∧ codecDecode s.cfg.cap d = .fc .cts bs st := by
  have hstays {u : State} (hu : u.tx = s.tx) : u.tx.state ≠ .sendCf := by rw [hu, hw]; decide
  cases e with
  | reset => cases h; cases ht
  | send p =>
    have h := (handle_send h).2
    rw [segSend, if_neg (by simp [hw])] at h
    cases h
    exact absurd ht (hstays rfl)
  | abortTx =>
    cases h
    rw [segAbort, if_neg (by simp [hw])] at ht
    cases ht
  | abortRx => cases h; exact absurd ht (hstays (reaAbort_rxRule s).tx)
  | linkRx a d =>
    obtain ⟨-, rfl⟩ := handle_linkRx h
    split at ht
    · rename_i ha
      by_cases hseg : ForSegmenter (codecDecode s.cfg.cap d) s
      · obtain ⟨-, fs, bs, st, hv⟩ := hseg
        rw [hv, deliver_segmenter hw] at ht
        cases fs with
        | cts => exact ⟨d, bs, st, by rw [ha], hv⟩
        | wait => exact absurd (hw.symm.trans ht) (by decide)
        | ovflw => cases ht
      · exact absurd ht (hstays (deliver_rxRule hseg).tx)
    · exact absurd ht (hstays rfl)
  | tick =>
    obtain ⟨u, hu, rfl⟩ := (tick_eq_next_iff s t).1 h
    rw [(reaTick_rxRule u).tx] at ht
    rcases segTick_cases hu with ⟨-, rfl⟩ | ⟨-, rfl⟩ | ⟨-, -, -, rfl⟩ | ⟨hs, -⟩ | ⟨hs, -⟩
    · exact absurd ht (hstays rfl)
    · cases ht
    · exact absurd (hw.symm.trans ht) (by decide)
    · exact absurd (hw.symm.trans hs) (by decide)
    · exact absurd (hw.symm.trans hs) (by decide)

/-! ### The obligations -/

/-- Settles O49: what each half may emit, with the bound the invariants give on the length of a reception. -/
theorem outputsAreThoseThePortsAllow : Obligations.OutputsAreThoseThePortsAllow := by
  unfold Obligations.OutputsAreThoseThePortsAllow
  intro s t h ht
  obtain ⟨⟨hcap, -⟩, -, -, -, hbuf⟩ := h.legal
  refine ⟨fun a d ha => ?_, step_frames_le_one ht, fun e ha => ?_, fun e ha => ?_, fun p ha => ?_⟩
  · rcases mem_emitted ht ha with ⟨haddr, ⟨hmin, hmax, -⟩, -⟩ | ⟨haddr, hflow, -⟩
    · exact ⟨haddr, hmin, hmax⟩
    · have hlen : d.length = 3 := by rcases hflow with rfl | rfl <;> rfl
      exact ⟨haddr, by omega, by omega⟩
  · rcases mem_emitted ht ha with hr | hr
    · exact hr e rfl
    · exact hr.elim
  · rcases mem_emitted ht ha with hr | hr
    · exact hr.elim
    · exact hr
  · rcases mem_emitted ht ha with hr | hshort | ⟨hs, hlen⟩
    · exact hr.elim
    · omega
    · have := (h.rx.length hs).2
      rw [maxPayload] at hbuf
      omega

/-- Settles O50: the transmit half's account; the receive half emits no answer to a send. -/
theorem everyAcceptedSendIsAnsweredOnce : Obligations.EveryAcceptedSendIsAnsweredOnce := by
  unfold Obligations.EveryAcceptedSendIsAnsweredOnce
  intro s t x rest hi hx h
  obtain ⟨as, bs, hemit, hacts⟩ := step_acts hi hx h
  have hbs : bs.countP Action.isTxDone = 0 := List.countP_eq_zero.2 fun a ha => by
    simp [isTxDone_of_isTxReport (isTxReport_of_reaAction (hacts.rx.allowed a ha))]
  rw [hemit, List.countP_append, hbs, Nat.add_zero, hacts.tx.account]
  cases txBusy s <;> cases x.event.isSend <;> rfl

/-- Settles O51: the receive half's account; the transmit half reports nothing on the receive side. -/
theorem everyReceptionIsReportedOnce : Obligations.EveryReceptionIsReportedOnce := by
  unfold Obligations.EveryReceptionIsReportedOnce
  intro s t x rest hi hx h
  obtain ⟨as, bs, hemit, hacts⟩ := step_acts hi hx h
  have has : as.countP Action.isRxReport = 0 := List.countP_eq_zero.2 fun a ha => by
    simp [isRxReport_of_segAction (hacts.tx.allowed a ha)]
  obtain ⟨hle, heq⟩ := hacts.rx.account
  rw [hemit, List.countP_append, has, Nat.zero_add]
  exact ⟨heq, fun _ => hle⟩

/-- Settles O53: a waiting Segmenter emits no frame, and only ContinueToSend ends the wait with sending. -/
theorem noConsecutiveFrameLeavesWhileWaiting : Obligations.NoConsecutiveFrameLeavesWhileWaiting := by
  unfold Obligations.NoConsecutiveFrameLeavesWhileWaiting
  intro s t hw h
  refine ⟨fun a d ha => ?_, fun ht => ?_⟩
  · rcases mem_emitted h ha with ⟨-, -, hnot⟩ | ⟨-, hflow, -⟩
    · exact absurd hw hnot
    · exact hflow
  · rcases step_cases h with ⟨-, rfl⟩ | ⟨⟨e, ok⟩, rest, hi, he⟩
    · exact absurd (hw.symm.trans ht) (by decide)
    · obtain ⟨d, bs, st, hd, hv⟩ := handle_enters_sendCf (s := takeStimulus _ rest s) hw he ht
      exact ⟨d, ok, rest, bs, st, by rw [hi]; exact congrArg (⟨·, ok⟩ :: rest) hd, hv⟩

/-- Settles O54: the invariants exclude `TX_WAIT_FC`, and the Reassembler emits frames only with the handshake. -/
theorem withoutTheHandshakeNoFlowControlIsUsed : Obligations.WithoutTheHandshakeNoFlowControlIsUsed := by
  unfold Obligations.WithoutTheHandshakeNoFlowControlIsUsed
  intro s t h hfc ht
  refine ⟨fun hw => ?_, fun a d ha => ?_⟩
  · have hon := (step_inv h ht).tx.handshake hw
    rw [(step_keeps ht).1, hfc] at hon
    cases hon
  · rcases mem_emitted ht ha with ⟨-, ⟨-, -, hdata⟩, -⟩ | ⟨-, -, hon⟩
    · exact hdata
    · rw [hfc] at hon; cases hon

end Sys2Proof.Machine
end

section
/-!
SUPPORT. The independence of the halves: one event taken by two states that differ in one half, and the obligation O52.
-/

namespace Sys2Proof.Machine

/-! ### What two steps add to one transcript -/

/-- From the transcript of `s`, what `t` and `u` add agrees on the actions `P`. -/
def AgreeOn (P : Action → Bool) (s t u : State) : Prop :=
  ∃ l m, t.out = s.out ++ l ∧ u.out = s.out ++ m ∧ l.filter P = m.filter P

theorem AgreeOn.filter_emitted {P : Action → Bool} {s s' t u : State} (h : AgreeOn P s t u) (hout : s'.out = s.out) :
    (emitted s t).filter P = (emitted s' u).filter P := by
  obtain ⟨l, m, ht, hu, hlm⟩ := h
  rw [emitted_of_out ht, emitted_of_out (hu.trans (by rw [hout])), hlm]

theorem AgreeOn.of_out_eq {P : Action → Bool} {s t u : State} (ht : SamePorts s t) (hu : u.out = t.out) :
    AgreeOn P s t u := by
  obtain ⟨l, hl⟩ := ht.out
  exact ⟨l, l, hl.symm, by rw [hu, hl], rfl⟩

theorem filter_eq_of_none {P : Action → Bool} {l m : List Action} (hl : ∀ x ∈ l, P x = false)
    (hm : ∀ x ∈ m, P x = false) : l.filter P = m.filter P := by
  rw [List.filter_eq_nil_iff.2 (by simpa using hl), List.filter_eq_nil_iff.2 (by simpa using hm)]

theorem AgreeOn.of_none {P : Action → Bool} {s t u : State} {l m : List Action} (ht : t.out = s.out ++ l)
    (hu : u.out = s.out ++ m) (hl : ∀ x ∈ l, P x = false) (hm : ∀ x ∈ m, P x = false) : AgreeOn P s t u := by
  exact ⟨l, m, ht, hu, filter_eq_of_none hl hm⟩

theorem AgreeOn.append {P : Action → Bool} {s t u t' u' : State} {l m : List Action} (h : AgreeOn P s t u)
    (ht : t'.out = t.out ++ l) (hu : u'.out = u.out ++ m) (hlm : l.filter P = m.filter P) : AgreeOn P s t' u' := by
  obtain ⟨l₀, m₀, ht₀, hu₀, hlm₀⟩ := h
  refine ⟨l₀ ++ l, m₀ ++ m, by rw [ht, ht₀, List.append_assoc], by rw [hu, hu₀, List.append_assoc], ?_⟩
  rw [List.filter_append, List.filter_append, hlm₀, hlm]

/-- A Segmenter that waits for Flow Control emits no frame. -/
theorem isFrame_of_segAction {c : Config} {h : TxHalf} (hw : h.state = .waitFc) {x : Action} (hx : SegAction c h x) :
    x.isFrame = false := by
  cases x with
  | linkTx a d => exact absurd hw hx.2.2
  | txDone | sendRefused | rxPayload | rxError | rxAborted => rfl

/-- The receive half's tick depends on the receive half alone. -/
theorem reaTick_of_rx_eq {s u : State} (h : u.rx = s.rx) :
    (reaTick s).rx = (reaTick u).rx ∧ ∃ bs, (reaTick s).out = s.out ++ bs ∧ (reaTick u).out = u.out ++ bs := by
  cases hs : s.rx.state with
  | idle =>
    rw [reaTick_of_idle hs, reaTick_of_idle (h ▸ hs)]
    exact ⟨h.symm, [], by simp, by simp⟩
  | awaitCf =>
    simp only [reaTick, h, hs]
    split
    · exact ⟨rfl, _, rfl, rfl⟩
    · exact ⟨rfl, [], by simp, by simp⟩

/-! ### One event with either half replaced -/

/-- The router with the receive half replaced: the Segmenter's rules commute with it, the Reassembler's keep the transmit
half and report nothing on its side. -/
theorem deliver_withRx {v : Verdict} {s : State} (r : RxHalf) (hv : ∀ p, v = .sf p → p.length ≤ 15) :
    (deliver v s).tx = (deliver v { s with rx := r }).tx ∧
      AgreeOn Action.isTxReport s (deliver v s) (deliver v { s with rx := r }) := by
  by_cases hseg : ForSegmenter v s
  · have hp := deliver_samePorts v s
    obtain ⟨hw, fs, bs, st, rfl⟩ := hseg
    rw [deliver_segmenter hw] at hp ⊢
    rw [deliver_segmenter (s := { s with rx := r }) hw, segFlow_withRx fs bs st s r]
    exact ⟨rfl, .of_out_eq hp rfl⟩
  · obtain ⟨bs, hbs, hacts⟩ := deliver_reaActs hseg hv
    obtain ⟨cs, hcs, hacts'⟩ := deliver_reaActs (s := { s with rx := r }) hseg hv
    refine ⟨?_, .of_none hbs hcs (fun x hx => isTxReport_of_reaAction (hacts.allowed x hx))
      fun x hx => isTxReport_of_reaAction (hacts'.allowed x hx)⟩
    rw [(deliver_rxRule hseg).tx, (deliver_rxRule (s := { s with rx := r }) hseg).tx]

/-- The router with the transmit half replaced, `tx_state` kept: the Reassembler's rules commute with it, the Segmenter's
keep the receive half and neither report on its side nor emit a frame. -/
theorem deliver_of_tx_state_eq (v : Verdict) {s : State} {h : TxHalf} (hh : h.state = s.tx.state) :
    (deliver v s).rx = (deliver v { s with tx := h }).rx ∧
      AgreeOn Action.isRxReport s (deliver v s) (deliver v { s with tx := h }) ∧
      AgreeOn Action.isFrame s (deliver v s) (deliver v { s with tx := h }) := by
  by_cases hseg : ForSegmenter v s
  · obtain ⟨hw, fs, bs, st, rfl⟩ := hseg
    have hw' : h.state = .waitFc := hh.trans hw
    rw [deliver_segmenter hw, deliver_segmenter (s := { s with tx := h }) hw']
    obtain ⟨as, has, hacts⟩ := segFlow_acts hw fs bs st
    obtain ⟨cs, hcs, hacts'⟩ := segFlow_acts (s := { s with tx := h }) hw' fs bs st
    exact ⟨(segFlow_txRule fs bs st s).rx.trans (segFlow_txRule fs bs st { s with tx := h }).rx.symm,
      .of_none has hcs (fun x hx => isRxReport_of_segAction (hacts.allowed x hx))
        fun x hx => isRxReport_of_segAction (hacts'.allowed x hx),
      .of_none has hcs (fun x hx => isFrame_of_segAction hw (hacts.allowed x hx))
        fun x hx => isFrame_of_segAction hw' (hacts'.allowed x hx)⟩
  · rw [deliver_withTx hseg hh]
    have hp := deliver_samePorts v s
    exact ⟨rfl, .of_out_eq hp rfl, .of_out_eq hp rfl⟩

/-- R146: what the transmit half does and reports does not depend on the receive half, nor do its frames. -/
theorem handle_withRx {e : Event} {s t u : State} {r : RxHalf} (ht : handle e s = .next t)
    (hu : handle e { s with rx := r } = .next u) : t.tx = u.tx ∧ AgreeOn Action.isTxReport s t u ∧
      ((∀ a d, e ≠ .linkRx a d) → AgreeOn Action.isFrame s t u) := by
  have hp := handle_samePorts ht
  cases e with
  | reset => cases ht; cases hu; exact ⟨rfl, .of_out_eq hp rfl, fun _ => .of_out_eq hp rfl⟩
  | send p =>
    have hu := (handle_send hu).2
    rw [segSend_withRx, (handle_send ht).2] at hu
    cases hu
    exact ⟨rfl, .of_out_eq hp rfl, fun _ => .of_out_eq hp rfl⟩
  | abortTx =>
    cases ht; cases hu
    rw [segAbort_withRx s r]
    exact ⟨rfl, .of_out_eq hp rfl, fun _ => .of_out_eq hp rfl⟩
  | abortRx =>
    cases ht; cases hu
    obtain ⟨bs, hbs, hacts, hno⟩ := reaAbort_acts s
    obtain ⟨cs, hcs, hacts', hno'⟩ := reaAbort_acts { s with rx := r }
    refine ⟨?_, .of_none hbs hcs (fun x hx => isTxReport_of_reaAction (hacts.allowed x hx))
      (fun x hx => isTxReport_of_reaAction (hacts'.allowed x hx)), fun _ => .of_none hbs hcs hno hno'⟩
    rw [(reaAbort_rxRule s).tx, (reaAbort_rxRule _).tx]
  | linkRx a d =>
    obtain ⟨-, rfl⟩ := handle_linkRx ht
    obtain ⟨-, rfl⟩ := handle_linkRx hu
    by_cases ha : a = s.cfg.rxAddr
    · obtain ⟨htx, hagree⟩ := deliver_withRx (s := s) r fun p hp => codecDecode_sf_length (cap := s.cfg.cap) (d := d) hp
      simp only [if_pos ha]
      exact ⟨htx, hagree, fun hne => absurd rfl (hne a d)⟩
    · simp only [if_neg ha]
      exact ⟨trivial, .of_out_eq (.refl s) rfl, fun hne => absurd rfl (hne a d)⟩
  | tick =>
    obtain ⟨t, hst, rfl⟩ := (tick_eq_next_iff s _).1 ht
    obtain ⟨u, hsu, rfl⟩ := (tick_eq_next_iff _ _).1 hu
    rw [segTick_withRx, hst] at hsu
    cases hsu
    obtain ⟨bs, hbs, hacts, hno⟩ := reaTick_acts t
    obtain ⟨cs, hcs, hacts', hno'⟩ := reaTick_acts { t with rx := r }
    have hagree (P : Action → Bool) : AgreeOn P s t { t with rx := r } := .of_out_eq (segTick_txRule hst).toSamePorts rfl
    have hreports := filter_eq_of_none (fun x hx => isTxReport_of_reaAction (hacts.allowed x hx))
      fun x hx => isTxReport_of_reaAction (hacts'.allowed x hx)
    refine ⟨?_, (hagree _).append hbs hcs hreports, fun _ => (hagree _).append hbs hcs (filter_eq_of_none hno hno')⟩
    rw [(reaTick_rxRule t).tx, (reaTick_rxRule _).tx]

/-- R146: of the transmit half the receive half sees only `tx_state`, through the router. -/
theorem handle_withTx {e : Event} {s t u : State} {h : TxHalf} (hl : s.cfg.Legal) (hh : h.state = s.tx.state)
    (ht : handle e s = .next t) (hu : handle e { s with tx := h } = .next u) :
    t.rx = u.rx ∧ AgreeOn Action.isRxReport s t u ∧
      ((∃ a d, e = .linkRx a d) → AgreeOn Action.isFrame s t u) := by
  have hp := handle_samePorts ht
  cases e with
  | reset => cases ht; cases hu; exact ⟨rfl, .of_out_eq hp rfl, by simp⟩
  | send p =>
    have ht := (handle_send ht).2
    have hu := (handle_send hu).2
    obtain ⟨as, has, hacts⟩ := segSend_acts hl ht
    obtain ⟨cs, hcs, hacts'⟩ := segSend_acts (s := { s with tx := h }) hl hu
    exact ⟨(segSend_txRule ht).rx.trans (segSend_txRule hu).rx.symm,
      .of_none has hcs (fun x hx => isRxReport_of_segAction (hacts.allowed x hx))
        fun x hx => isRxReport_of_segAction (hacts'.allowed x hx), by simp⟩
  | abortTx =>
    cases ht; cases hu
    obtain ⟨as, has, hacts⟩ := segAbort_acts s
    obtain ⟨cs, hcs, hacts'⟩ := segAbort_acts { s with tx := h }
    exact ⟨(segAbort_txRule s).rx.trans (segAbort_txRule { s with tx := h }).rx.symm,
      .of_none has hcs (fun x hx => isRxReport_of_segAction (hacts.allowed x hx))
        fun x hx => isRxReport_of_segAction (hacts'.allowed x hx), by simp⟩
  | abortRx =>
    cases ht; cases hu
    rw [reaAbort_withTx s h]
    exact ⟨rfl, .of_out_eq hp rfl, by simp⟩
  | linkRx a d =>
    obtain ⟨-, rfl⟩ := handle_linkRx ht
    obtain ⟨-, rfl⟩ := handle_linkRx hu
    by_cases ha : a = s.cfg.rxAddr
    · obtain ⟨hrx, hreports, hframes⟩ := deliver_of_tx_state_eq (codecDecode s.cfg.cap d) hh
      simp only [if_pos ha]
      exact ⟨hrx, hreports, fun _ => hframes⟩
    · simp only [if_neg ha]
      exact ⟨trivial, .of_out_eq (.refl s) rfl, fun _ => .of_out_eq (.refl s) rfl⟩
  | tick =>
    obtain ⟨t, hst, rfl⟩ := (tick_eq_next_iff s _).1 ht
    obtain ⟨u, hsu, rfl⟩ := (tick_eq_next_iff _ _).1 hu
    obtain ⟨as, has, hacts⟩ := segTick_acts hl hst
    obtain ⟨cs, hcs, hacts'⟩ := segTick_acts (s := { s with tx := h }) hl hsu
    obtain ⟨hrx, bs, hbs, hbs'⟩ := reaTick_of_rx_eq (s := t) (u := u)
      ((segTick_txRule hsu).rx.trans (segTick_txRule hst).rx.symm)
    have hagree : AgreeOn Action.isRxReport s t u :=
      .of_none has hcs (fun x hx => isRxReport_of_segAction (hacts.allowed x hx))
        fun x hx => isRxReport_of_segAction (hacts'.allowed x hx)
    exact ⟨hrx, hagree.append hbs hbs' rfl, by simp⟩

/-! ### The obligation -/

/-- Settles O52: the step takes one event, which each half takes without looking at the other. -/
theorem halvesAreIndependent : Obligations.HalvesAreIndependent := by
  unfold Obligations.HalvesAreIndependent
  refine ⟨fun s t u r ht hu => ?_, fun s t u h hh ht hu => ?_⟩
  · have hl := legal_of_step ht
    rcases step_cases ht with ⟨hi, rfl⟩ | ⟨x, rest, hi, he⟩
    · rw [step_of_nil (s := { t with rx := r }) hl hi] at hu
      cases hu
      exact ⟨rfl, by simp [emitted], fun _ => by simp [emitted]⟩
    · rw [step_of_cons (s := { s with rx := r }) hl hi] at hu
      obtain ⟨htx, hreports, hframes⟩ := handle_withRx he hu
      refine ⟨htx, hreports.filter_emitted rfl, fun hne => (hframes fun a d hx => ?_).filter_emitted rfl⟩
      exact hne a d x.linkOk rest (by rw [hi, ← hx])
  · have hl := legal_of_step ht
    rcases step_cases ht with ⟨hi, rfl⟩ | ⟨x, rest, hi, he⟩
    · rw [step_of_nil (s := { t with tx := h }) hl hi] at hu
      cases hu
      exact ⟨rfl, by simp [emitted], fun _ _ _ _ _ => by simp [emitted]⟩
    · rw [step_of_cons (s := { s with tx := h }) hl hi] at hu
      obtain ⟨hrx, hreports, hframes⟩ := handle_withTx (s := takeStimulus x rest s) hl hh he hu
      refine ⟨hrx, hreports.filter_emitted rfl, fun a d ok rest' hx => (hframes ⟨a, d, ?_⟩).filter_emitted rfl⟩
      rw [hi] at hx
      rw [(List.cons.inj hx).1]

end Sys2Proof.Machine
end

section
/-!
SUPPORT. Runs: a list of events taken one after the other, the two timeouts and the Wait frames, and the obligations O55,
O56 and O57.
-/

namespace Sys2Proof.Machine

/-! ### Taking a list of events -/

/-- `s` with the events `xs` offered and the last link answer `ok`. -/
def offering (xs : List Stimulus) (ok : Bool) (s : State) : State := { s with input := xs, linkOk := ok }

theorem eq_offering {s : State} {xs : List Stimulus} (h : s.input = xs) : s = offering xs s.linkOk s := by
  subst h; rfl

theorem runFor_one {s t : State} (h : step s = .next t) : runFor 1 s = .next t := runFor_succ 0 h

/-- When the `i`-th event of `xs` leads from `S i` to `S (i + 1)`, the run over `xs` leads from `S 0` to its end. -/
theorem runFor_offering (S : Nat → State) (xs : List Stimulus)
    (hstep : ∀ (i : Nat) (hi : i < xs.length) (ok : Bool) (rest : List Stimulus),
      step (offering (xs[i] :: rest) ok (S i)) = .next (offering rest true (S (i + 1))))
    (ok : Bool) (rest : List Stimulus) :
    runFor xs.length (offering (xs ++ rest) ok (S 0)) =
      .next (offering rest (ok || decide (0 < xs.length)) (S xs.length)) := by
  induction xs generalizing S ok with
  | nil => simp
  | cons x xs ih =>
    have hfirst := hstep 0 (Nat.zero_lt_succ _) ok (xs ++ rest)
    have hrest := ih (fun i => S (i + 1)) (fun i hi => hstep (i + 1) (Nat.succ_lt_succ hi)) true
    exact (runFor_succ _ hfirst).trans (hrest.trans (by simp))

/-- The same for ticks with an accepting link. -/
theorem runFor_ticks (S : Nat → State) (k : Nat)
    (hstep : ∀ i, i < k → ∀ (ok : Bool) (rest : List Stimulus),
      step (offering (tickOk :: rest) ok (S i)) = .next (offering rest true (S (i + 1))))
    (ok : Bool) (rest : List Stimulus) :
    runFor k (offering (List.replicate k tickOk ++ rest) ok (S 0)) = .next (offering rest (ok || decide (0 < k)) (S k)) := by
  have h := runFor_offering S (List.replicate k tickOk)
    (fun i hi ok rest => by
      rw [List.getElem_replicate]
      exact hstep i (by simpa using hi) ok rest) ok rest
  rwa [List.length_replicate] at h

/-- A run of the first `k` of `n` ticks. -/
theorem replicate_split {n k : Nat} (h : k ≤ n) (rest : List Stimulus) :
    List.replicate n tickOk ++ rest = List.replicate k tickOk ++ (List.replicate (n - k) tickOk ++ rest) := by
  rw [← List.append_assoc, List.replicate_append_replicate, Nat.add_sub_cancel' h]

/-! ### Ticks while one half waits -/

theorem totalAfter_of_off {s : State} (hx : s.cfg.tXferTicks = 0) : totalAfter s = s.tx.total := if_pos hx

section SendWaits

variable {s : State} (hl : s.cfg.Legal) (hw : s.tx.state = .waitFc) (hr : s.rx.state = .idle)
  (hx : s.cfg.tXferTicks = 0)
include hl hw hr hx

/-- R107: a tick of the wait for Flow Control that is not the last. -/
theorem step_wait_tick {rest : List Stimulus} (hi : s.input = tickOk :: rest) (ht : 1 < s.tx.tmr) :
    step s = .next { s with input := rest, linkOk := true, tx := { s.tx with tmr := s.tx.tmr - 1 } } := by
  have h := segTick_wait (s := { s with input := rest, linkOk := true }) (.inl hx) hw ht
  rw [totalAfter_of_off (s := { s with input := rest, linkOk := true }) hx] at h
  exact (step_tick hl hi h).trans (congrArg _ (reaTick_of_idle hr))

/-- R107: the last tick of the wait. -/
theorem step_wait_last {rest : List Stimulus} (hi : s.input = tickOk :: rest) (ht : s.tx.tmr = 1) :
    step s = .next { s with
      input := rest, linkOk := true, tx := .reset, out := s.out ++ [.txDone (.err .flowControlTimeout)] } := by
  have h := segTick_wait_last (s := { s with input := rest, linkOk := true }) (.inl hx) hw ht
  exact (step_tick hl hi h).trans (congrArg _ (reaTick_of_idle hr))

end SendWaits

section ReceptionWaits

variable {s : State} (hl : s.cfg.Legal) (hr : s.rx.state = .awaitCf) (hs : s.tx.state = .idle)
include hl hr hs

/-- R132: a tick of the wait for a Consecutive Frame that is not the last. -/
theorem step_await_tick {rest : List Stimulus} (hi : s.input = tickOk :: rest) (ht : 1 < s.rx.tmr) :
    step s = .next { s with input := rest, linkOk := true, rx := { s.rx with tmr := s.rx.tmr - 1 } } :=
  (step_tick hl hi (segTick_of_idle hs)).trans (congrArg _ (reaTick_counts hr ht))

/-- R132: the last tick of the wait. -/
theorem step_await_last {rest : List Stimulus} (hi : s.input = tickOk :: rest) (ht : s.rx.tmr = 1) :
    step s = .next { s with
      input := rest, linkOk := true, rx := .reset, out := s.out ++ [.rxError .reassemblyTimeout] } :=
  (step_tick hl hi (segTick_of_idle hs)).trans (congrArg _ (reaTick_last hr ht))

end ReceptionWaits

/-- The engine `i` ticks into the wait for Flow Control. -/
def waitedFc (s : State) (i : Nat) : State := { s with tx := { s.tx with tmr := s.tx.tmr - i } }

/-- The engine `i` ticks into the wait for a Consecutive Frame. -/
def waitedCf (s : State) (i : Nat) : State := { s with rx := { s.rx with tmr := s.rx.tmr - i } }

/-- Fewer ticks than the timer holds leave the send waiting. -/
theorem runFor_waitedFc {s : State} (hl : s.cfg.Legal) (hw : s.tx.state = .waitFc) (hr : s.rx.state = .idle)
    (hx : s.cfg.tXferTicks = 0) {k : Nat} (hk : k < s.tx.tmr) {rest : List Stimulus}
    (hi : s.input = List.replicate k tickOk ++ rest) :
    runFor k s = .next (offering rest (s.linkOk || decide (0 < k)) (waitedFc s k)) := by
  have h := runFor_ticks (waitedFc s) k (fun i hik ok rest =>
    (step_wait_tick (s := offering (tickOk :: rest) ok (waitedFc s i)) hl hw hr hx rfl
      (show 1 < s.tx.tmr - i by omega)).trans
      (by rw [offering, offering, waitedFc, waitedFc, ← Nat.sub_sub])) s.linkOk rest
  rwa [show waitedFc s 0 = s from rfl, ← eq_offering hi] at h

/-- Fewer ticks than the timer holds leave the reception in progress. -/
theorem runFor_waitedCf {s : State} (hl : s.cfg.Legal) (hr : s.rx.state = .awaitCf) (hs : s.tx.state = .idle)
    {k : Nat} (hk : k < s.rx.tmr) {rest : List Stimulus} (hi : s.input = List.replicate k tickOk ++ rest) :
    runFor k s = .next (offering rest (s.linkOk || decide (0 < k)) (waitedCf s k)) := by
  have h := runFor_ticks (waitedCf s) k (fun i hik ok rest =>
    (step_await_tick (s := offering (tickOk :: rest) ok (waitedCf s i)) hl hr hs rfl
      (show 1 < s.rx.tmr - i by omega)).trans
      (by rw [offering, offering, waitedCf, waitedCf, ← Nat.sub_sub])) s.linkOk rest
  rwa [show waitedCf s 0 = s from rfl, ← eq_offering hi] at h

/-! ### Wait frames -/

/-- The engine after a Wait frame and a tick: one tick of the reloaded timer is used. -/
def waitedRound (s : State) (xs : List Stimulus) : State :=
  { s with input := xs, linkOk := true, tx := { s.tx with tmr := s.cfg.nBsTicks - 1 } }

/-- R105, R107: a Wait frame and the tick after it leave the send waiting with one tick of its timer used. -/
theorem runFor_wait_round {s : State} (hl : s.cfg.Legal) (hw : s.tx.state = .waitFc) (hr : s.rx.state = .idle)
    (hx : s.cfg.tXferTicks = 0) (hbs : 2 ≤ s.cfg.nBsTicks) {rest : List Stimulus}
    (hi : s.input = arrives s.cfg [0x31#8, 0#8, 0#8] :: tickOk :: rest) :
    runFor 2 s = .next (waitedRound s rest) := by
  have hcap : 3 ≤ s.cfg.cap := hl.min_cap
  have hframe := step_arrives hl hi hcap
  have hdeliver : deliver (codecDecode s.cfg.cap [0x31#8, 0#8, 0#8]) { s with input := tickOk :: rest, linkOk := true } =
      segWait { s with input := tickOk :: rest, linkOk := true } := deliver_segmenter (fs := .wait) hw
  rw [hdeliver] at hframe
  rw [runFor_succ 1 hframe]
  exact runFor_one (step_wait_tick (s := segWait { s with input := tickOk :: rest, linkOk := true }) hl hw hr hx rfl hbs)

/-! ### The obligations -/

/-- Settles O55: the timer counts down in silence, and its last tick raises `FlowControlTimeout`. -/
theorem unansweredSendTimesOutOnTheLastTick : Obligations.UnansweredSendTimesOutOnTheLastTick := by
  unfold Obligations.UnansweredSendTimesOutOnTheLastTick
  intro s rest h hw hr hx hi
  have htmr : 1 ≤ s.tx.tmr := h.tx.waitTimer hw
  have hrun {k : Nat} (hk : k < s.tx.tmr) :=
    runFor_waitedFc h.legal hw hr hx hk (hi.trans (replicate_split (Nat.le_of_lt hk) rest))
  refine ⟨fun k hk => ⟨_, hrun hk, rfl, hw⟩, ?_⟩
  have hsplit : s.tx.tmr = (s.tx.tmr - 1) + 1 := by omega
  have hlast : s.tx.tmr - (s.tx.tmr - 1) = 1 := by omega
  have hbefore := hrun (k := s.tx.tmr - 1) (by omega)
  rw [hlast] at hbefore
  rw [hsplit, runFor_add _ 1 hbefore]
  exact runFor_one (step_wait_last (s := offering (tickOk :: rest) _ (waitedFc s _)) h.legal hw hr hx rfl hlast)

/-- Settles O56: the timer counts down in silence, and its last tick raises `ReassemblyTimeout`. -/
theorem unfedReceptionTimesOutOnTheLastTick : Obligations.UnfedReceptionTimesOutOnTheLastTick := by
  unfold Obligations.UnfedReceptionTimesOutOnTheLastTick
  intro s rest h hr hs hi
  have htmr : 1 ≤ s.rx.tmr := (h.rx.timer hr).1
  have hrun {k : Nat} (hk : k < s.rx.tmr) :=
    runFor_waitedCf h.legal hr hs hk (hi.trans (replicate_split (Nat.le_of_lt hk) rest))
  refine ⟨fun k hk => ⟨_, hrun hk, rfl, hr⟩, ?_⟩
  have hsplit : s.rx.tmr = (s.rx.tmr - 1) + 1 := by omega
  have hlast : s.rx.tmr - (s.rx.tmr - 1) = 1 := by omega
  have hbefore := hrun (k := s.rx.tmr - 1) (by omega)
  rw [hlast] at hbefore
  rw [hsplit, runFor_add _ 1 hbefore]
  exact runFor_one (step_await_last (s := offering (tickOk :: rest) _ (waitedCf s _)) h.legal hr hs rfl hlast)

/-- Settles O57, by induction on the rounds: each leaves the send waiting with its timer as one tick after a reload. -/
theorem waitFramesHoldTheSendForever : Obligations.WaitFramesHoldTheSendForever := by
  unfold Obligations.WaitFramesHoldTheSendForever
  intro n s rest h hw hr hx hbs hi
  have hl := h.legal
  clear h
  induction n generalizing s with
  | zero => exact ⟨s, rfl, hw, rfl, hi⟩
  | succ n ih =>
    obtain ⟨t, hrun, ht, hout, hinput⟩ :=
      ih (waitedRound s ((List.replicate n [arrives s.cfg [0x31#8, 0#8, 0#8], tickOk]).flatten ++ rest)) hw hr hx hbs rfl hl
    have hround := runFor_wait_round hl hw hr hx hbs (hi.trans (by rw [List.replicate_succ]; rfl))
    exact ⟨t, by rw [Nat.mul_succ, Nat.add_comm]; exact (runFor_add 2 _ hround).trans hrun, ht, hout, hinput⟩

end Sys2Proof.Machine
end

section
/-!
SUPPORT. A completed send: the frames of a transfer and their offsets, the send in flight tick by tick, and the obligation
O58.
-/

namespace Sys2Proof.Machine

/-! ### The frames of a transfer -/

/-- The First Frame of a send of `p` (R115). -/
def ffOf (cap : Nat) (p : List Byte) : List Byte :=
  (0x10#8 ||| BitVec.ofNat 8 (p.length / 256)) :: BitVec.ofNat 8 p.length :: p.take (cap - 2)

/-- How many bytes have been sent after the First Frame and `k` Consecutive Frames (R115). -/
def cfOffset (cap k : Nat) : Nat := (cap - 2) + k * (cap - 1)

theorem cfOffset_succ (cap k : Nat) : cfOffset cap (k + 1) = cfOffset cap k + (cap - 1) := by
  rw [cfOffset, cfOffset, Nat.succ_mul, Nat.add_assoc]

/-- R109: the slice cut at the payload's end is the one the frame carries. -/
theorem take_min_drop (cap k : Nat) (p : List Byte) :
    (p.drop (cfOffset cap k)).take (min (cap - 1) (p.length - cfOffset cap k)) =
      (p.drop (cfOffset cap k)).take (cap - 1) := by
  rw [List.take_eq_take_iff, List.length_drop]
  omega

theorem transferFrames_of_short {cap : Nat} {p : List Byte} (h : p.length ≤ cap - 1) :
    transferFrames cap p = [BitVec.ofNat 8 p.length :: p] := if_pos h

section Frames

variable {cap : Nat} {p : List Byte} (hcap : 3 ≤ cap) (hmin : cap ≤ p.length)
include hcap hmin

theorem transferFrames_of_long : transferFrames cap p =
    ffOf cap p :: (List.range (cfCount cap p.length)).map fun j => cfOf cap p (j + 1) := if_neg (by omega)

/-- R87: the First Frame is what the formatter writes. -/
theorem encFF_eq_ffOf (hmax : p.length ≤ 4095) : encFF cap p.length (p.take (cap - 2)) = some (ffOf cap p) := by
  have hchunk : (p.take (cap - 2)).length = cap - 2 := by rw [List.length_take]; omega
  exact (encFF_eq_some_iff ..).2 ⟨⟨by omega, hmax, hchunk⟩, by rw [Nat.shiftRight_eq_div_pow]; rfl⟩

/-- R55: as many Consecutive Frames as there are offsets inside the payload. -/
theorem lt_cfCount_iff (k : Nat) : k < cfCount cap p.length ↔ cfOffset cap k < p.length := by
  have hcount : cfCount cap p.length = p.length / (cap - 1) := by
    rw [cfCount, Nat.sub_add_cancel (by omega)]
  rw [hcount, ← Nat.succ_le_iff, Nat.le_div_iff_mul_le (by omega), Nat.succ_mul, cfOffset]
  omega

theorem cfCount_pos : 0 < cfCount cap p.length :=
  (lt_cfCount_iff hcap hmin 0).2 (by rw [cfOffset]; omega)

/-- R88: a Consecutive Frame inside the payload is what the formatter writes. -/
theorem encCF_eq_cfOf {k : Nat} (hk : k < cfCount cap p.length) :
    encCF cap (BitVec.ofNat 4 (1 + k)) ((p.drop (cfOffset cap k)).take (cap - 1)) = some (cfOf cap p (k + 1)) := by
  have hoff := (lt_cfCount_iff hcap hmin k).1 hk
  have hsn : (BitVec.ofNat 4 (1 + k)).zeroExtend 8 = BitVec.ofNat 8 ((k + 1) % 16) := by
    apply BitVec.eq_of_toNat_eq
    simp
    omega
  refine (encCF_eq_some_iff ..).2 ⟨?_, by rw [hsn]; rfl⟩
  rw [List.length_take, List.length_drop]
  omega

theorem length_transferFrames : (transferFrames cap p).length = 1 + cfCount cap p.length := by
  rw [transferFrames_of_long hcap hmin]
  simp [Nat.add_comm]

/-- R115: the frames out after `k + 1` Consecutive Frames are those after `k` and the next one. -/
theorem take_transferFrames_succ {k : Nat} (hk : k < cfCount cap p.length) :
    (transferFrames cap p).take (1 + (k + 1)) = (transferFrames cap p).take (1 + k) ++ [cfOf cap p (k + 1)] := by
  have hlen : 1 + k < (transferFrames cap p).length := by rw [length_transferFrames hcap hmin]; omega
  have hget : (transferFrames cap p)[1 + k] = cfOf cap p (k + 1) := by
    simp [transferFrames_of_long hcap hmin, Nat.add_comm 1 k]
  rw [← Nat.add_assoc, List.take_add_one, List.getElem?_eq_getElem hlen, hget]
  rfl

/-- The transfer ends with its last Consecutive Frame. -/
theorem transferFrames_eq_take_append {k : Nat} (hk : k + 1 = cfCount cap p.length) :
    transferFrames cap p = (transferFrames cap p).take (1 + k) ++ [cfOf cap p (k + 1)] := by
  rw [← take_transferFrames_succ hcap hmin (by omega), hk, ← length_transferFrames hcap hmin, List.take_length]

end Frames

/-! ### The send in flight -/

/-- The transmit half after the First Frame and `k` Consecutive Frames, in an unlimited block. -/
def sendingHalf (c : Config) (p : List Byte) (st k gap : Nat) : TxHalf where
  state := .sendCf
  buf := p
  len := p.length
  off := cfOffset c.cap k
  sn := BitVec.ofNat 4 (1 + k)
  bs := 0
  bsRem := 0
  st := st
  gap := gap
  tmr := c.nBsTicks
  total := c.tXferTicks

/-- The engine `s` with a send of `p` in flight, the First Frame and `k` Consecutive Frames out. -/
def sending (s : State) (p : List Byte) (st k gap : Nat) : State := { s with
  tx := sendingHalf s.cfg p st k gap
  out := s.out ++ ((transferFrames s.cfg.cap p).take (1 + k)).map (.linkTx s.cfg.txAddr) }

/-- The engine `s` after a completed send of `p`. -/
def sent (s : State) (p : List Byte) : State :=
  { s with out := s.out ++ (transferFrames s.cfg.cap p).map (.linkTx s.cfg.txAddr) ++ [.txDone .ok] }

section Sending

variable {s : State} {p : List Byte} (hl : s.cfg.Legal) (hx : s.cfg.tXferTicks = 0) (hr : s.rx.state = .idle)
  (hmin : s.cfg.cap ≤ p.length)
include hl hx

section

include hmin

/-- R109: when the gap ends, the next Consecutive Frame is presented and accepted. -/
theorem step_sending_presents {st k gap : Nat} (hk : k < cfCount s.cfg.cap p.length) (hg : gap ≤ 1) (ok : Bool)
    (rest : List Stimulus) : step (offering (tickOk :: rest) ok (sending s p st k gap)) =
      .next (reaTick (afterCf (min (s.cfg.cap - 1) (p.length - cfOffset s.cfg.cap k))
        (presentFrame (cfOf s.cfg.cap p (k + 1)) (offering rest true (sending s p st k 0))))) := by
  have hcap : 3 ≤ s.cfg.cap := hl.min_cap
  have hoff := (lt_cfCount_iff hcap hmin k).1 hk
  have hslice : 1 ≤ ((p.drop (cfOffset s.cfg.cap k)).take (s.cfg.cap - 1)).length ∧
      ((p.drop (cfOffset s.cfg.cap k)).take (s.cfg.cap - 1)).length ≤ s.cfg.cap - 1 := by
    rw [List.length_take, List.length_drop]; omega
  have hframe : dueFrame s.cfg.cap (sendingHalf s.cfg p st k gap) = cfOf s.cfg.cap p (k + 1) := by
    refine Option.some.inj (Eq.trans ?_ (encCF_eq_cfOf hcap hmin hk))
    rw [encCF_of_fits hslice.1 hslice.2, ← take_min_drop]
    rfl
  have h := (segTick_due (s := offering rest true (sending s p st k gap)) (.inl hx) rfl hg (Nat.le_of_succ_le hcap)
    hoff rfl).trans (if_pos rfl)
  rw [duePresented, totalAfter_of_off (s := offering rest true (sending s p st k gap)) hx] at h
  rw [← hframe]
  exact step_tick (s := offering (tickOk :: rest) ok (sending s p st k gap)) hl rfl h

end

include hr

/-- R109: a tick inside the gap. -/
theorem step_sending_gap {st k gap : Nat} (hg : 1 < gap) (ok : Bool) (rest : List Stimulus) :
    step (offering (tickOk :: rest) ok (sending s p st k gap)) =
      .next (offering rest true (sending s p st k (gap - 1))) := by
  have h := segTick_gap (s := offering rest true (sending s p st k gap)) (.inl hx) rfl hg
  rw [totalAfter_of_off (s := offering rest true (sending s p st k gap)) hx] at h
  exact (step_tick (s := offering (tickOk :: rest) ok (sending s p st k gap)) hl rfl h).trans
    (congrArg _ (reaTick_of_idle hr))

include hmin

/-- R110: a frame that is not the last is followed by the gap. -/
theorem step_sending_due {st k gap : Nat} (hk : k + 1 < cfCount s.cfg.cap p.length) (hg : gap ≤ 1) (ok : Bool)
    (rest : List Stimulus) : step (offering (tickOk :: rest) ok (sending s p st k gap)) =
      .next (offering rest true (sending s p st (k + 1) st)) := by
  have hcap : 3 ≤ s.cfg.cap := hl.min_cap
  have hk' := Nat.lt_of_succ_lt hk
  have hoff := (lt_cfCount_iff hcap hmin (k + 1)).1 hk
  rw [cfOffset_succ] at hoff
  have hwhole : min (s.cfg.cap - 1) (p.length - cfOffset s.cfg.cap k) = s.cfg.cap - 1 := by omega
  have hsn : BitVec.ofNat 4 (1 + k) + 1#4 = BitVec.ofNat 4 (1 + (k + 1)) := by rw [← BitVec.ofNat_add]; rfl
  have hmore : cfOffset s.cfg.cap k + (s.cfg.cap - 1) ≠ p.length := Nat.ne_of_lt hoff
  rw [step_sending_presents hl hx hmin hk' hg, hwhole,
    afterCf_of_unlimited (s := presentFrame _ (offering rest true (sending s p st k 0))) hmore rfl,
    reaTick_of_idle]
  · simp [offering, sending, sendingHalf, presentFrame, emit, hsn, cfOffset_succ, take_transferFrames_succ hcap hmin hk']
  · exact hr

/-- R110: the last frame completes the send. -/
theorem step_sending_last (hs : s.tx = .reset) {st k gap : Nat} (hk : k + 1 = cfCount s.cfg.cap p.length) (hg : gap ≤ 1)
    (ok : Bool) (rest : List Stimulus) : step (offering (tickOk :: rest) ok (sending s p st k gap)) =
      .next (offering rest true (sent s p)) := by
  have hcap : 3 ≤ s.cfg.cap := hl.min_cap
  have hk' : k < cfCount s.cfg.cap p.length := by omega
  have hoff := (lt_cfCount_iff hcap hmin k).1 hk'
  have hend := (lt_cfCount_iff hcap hmin (k + 1)).not.1 (by omega)
  rw [cfOffset_succ] at hend
  have hdone : cfOffset s.cfg.cap k + min (s.cfg.cap - 1) (p.length - cfOffset s.cfg.cap k) = p.length := by omega
  rw [step_sending_presents hl hx hmin hk' hg,
    afterCf_of_done (s := presentFrame _ (offering rest true (sending s p st k 0))) hdone,
    reaTick_of_idle]
  · rw [sent, transferFrames_eq_take_append hcap hmin hk]
    simp [offering, sending, presentFrame, endSend, clearTx, emit, hs]
  · exact hr

end Sending

end Sys2Proof.Machine
end

section
/-!
SUPPORT. The schedule of a completed send (70_reset_and_hazards.md R208), and the obligation O58.
-/

namespace Sys2Proof.Machine

/-! ### Quotient and remainder of the next number -/

theorem div_mod_succ_of_lt {a b : Nat} (h : a % b + 1 < b) : (a + 1) / b = a / b ∧ (a + 1) % b = a % b + 1 := by
  have := Nat.div_add_mod a b
  exact (Nat.div_mod_unique (by omega)).2 ⟨by omega, h⟩

theorem div_mod_succ_of_eq {a b : Nat} (h : a % b + 1 = b) : (a + 1) / b = a / b + 1 ∧ (a + 1) % b = 0 := by
  have := Nat.div_add_mod a b
  refine (Nat.div_mod_unique (by omega)).2 ⟨?_, by omega⟩
  rw [Nat.mul_succ]
  omega

/-! ### The schedule -/

/-- How many Consecutive Frames are out `j` ticks after the Flow Control step, one every `sep` ticks from the first on. -/
def sentAfter (sep j : Nat) : Nat := (j + (sep - 1)) / sep

/-- The gap still to wait after `j` ticks, with a separation of `st` ticks. -/
def gapAfter (st j : Nat) : Nat := if j = 0 then 0 else st - (j - 1) % max st 1

theorem sentAfter_zero {sep : Nat} (h : 1 ≤ sep) : sentAfter sep 0 = 0 := Nat.div_eq_of_lt (by omega)

theorem sentAfter_succ {sep : Nat} (h : 1 ≤ sep) (j : Nat) : sentAfter sep (j + 1) = j / sep + 1 := by
  rw [sentAfter, Nat.add_assoc, Nat.add_sub_cancel' h, Nat.add_div_right _ h]

theorem gapAfter_succ (st j : Nat) : gapAfter st (j + 1) = st - j % max st 1 := rfl

/-- After `q * sep` ticks the next frame is due. -/
theorem sentAfter_mul {sep : Nat} (h : 1 ≤ sep) (q : Nat) : sentAfter sep (q * sep) = q := by
  rw [sentAfter, Nat.mul_comm, Nat.mul_add_div h, Nat.div_eq_of_lt (by omega), Nat.add_zero]

theorem gapAfter_mul_le_one (st q : Nat) : gapAfter st (q * max st 1) ≤ 1 := by
  obtain _ | q := q
  · simp [gapAfter]
  · have hpos : 1 ≤ max st 1 := Nat.le_max_right _ _
    have hpred : (q + 1) * max st 1 - 1 = max st 1 * q + (max st 1 - 1) := by
      rw [Nat.succ_mul, Nat.mul_comm]; omega
    rw [gapAfter, if_neg (Nat.mul_ne_zero (by omega) (by omega)), hpred, Nat.mul_add_mod,
      Nat.mod_eq_of_lt (by omega)]
    omega

section Schedule

variable {s : State} {p : List Byte} (hl : s.cfg.Legal) (hx : s.cfg.tXferTicks = 0) (hr : s.rx.state = .idle)
  (hmin : s.cfg.cap ≤ p.length)
include hl hx hr hmin

/-- A tick before the last one moves the send along its schedule. -/
theorem step_scheduled {st j : Nat} (hj : j < (cfCount s.cfg.cap p.length - 1) * max st 1) (ok : Bool)
    (rest : List Stimulus) :
    step (offering (tickOk :: rest) ok (sending s p st (sentAfter (max st 1) j) (gapAfter st j))) =
      .next (offering rest true (sending s p st (sentAfter (max st 1) (j + 1)) (gapAfter st (j + 1)))) := by
  have hpos : 1 ≤ max st 1 := Nat.le_max_right _ _
  cases j with
  | zero =>
    have hmore : 0 + 1 < cfCount s.cfg.cap p.length := by
      have := Nat.pos_of_mul_pos_right hj
      omega
    rw [sentAfter_zero hpos, sentAfter_succ hpos, gapAfter_succ, Nat.zero_div, Nat.zero_mod]
    exact step_sending_due hl hx hr hmin hmore (Nat.zero_le 1) ok rest
  | succ j =>
    have hlt := Nat.mod_lt j hpos
    rw [sentAfter_succ hpos, sentAfter_succ hpos, gapAfter_succ, gapAfter_succ]
    by_cases hgap : j % max st 1 + 1 < max st 1
    · obtain ⟨hdiv, hmod⟩ := div_mod_succ_of_lt hgap
      rw [hdiv, hmod, ← Nat.sub_sub]
      exact step_sending_gap hl hx hr (by omega) ok rest
    · obtain ⟨hdiv, hmod⟩ := div_mod_succ_of_eq (a := j) (b := max st 1) (by omega)
      have hmore : j / max st 1 + 1 + 1 < cfCount s.cfg.cap p.length := by
        have hq := (Nat.div_lt_iff_lt_mul hpos).2 hj
        rw [hdiv] at hq
        exact Nat.add_lt_of_lt_sub hq
      rw [hdiv, hmod]
      exact step_sending_due hl hx hr hmin hmore (by omega) ok rest

/-- The state any number of ticks before the last one. -/
theorem runFor_scheduled {st j : Nat} (hj : j ≤ (cfCount s.cfg.cap p.length - 1) * max st 1) (rest : List Stimulus) :
    runFor j (offering (List.replicate j tickOk ++ rest) true (sending s p st 0 0)) =
      .next (offering rest true (sending s p st (sentAfter (max st 1) j) (gapAfter st j))) := by
  have h := runFor_ticks (fun i => sending s p st (sentAfter (max st 1) i) (gapAfter st i)) j
    (fun i hi => step_scheduled hl hx hr hmin (by omega)) true rest
  rwa [sentAfter_zero (Nat.le_max_right _ _)] at h

/-- The last tick of the schedule completes the send. -/
theorem runFor_schedule (hs : s.tx = .reset) (st : Nat) (rest : List Stimulus) :
    runFor (1 + (cfCount s.cfg.cap p.length - 1) * max st 1)
        (offering (List.replicate (1 + (cfCount s.cfg.cap p.length - 1) * max st 1) tickOk ++ rest) true
          (sending s p st 0 0)) =
      .next (offering rest true (sent s p)) := by
  have hpos : 1 ≤ max st 1 := Nat.le_max_right _ _
  have hcount := cfCount_pos hl.min_cap hmin
  have hbefore := runFor_scheduled hl hx hr hmin (Nat.le_refl _) (st := st) (tickOk :: rest)
  rw [sentAfter_mul hpos] at hbefore
  have hlast := step_sending_last (st := st) hl hx hr hmin hs (Nat.sub_add_cancel hcount)
    (gapAfter_mul_le_one st (cfCount s.cfg.cap p.length - 1)) true rest
  rw [Nat.add_comm 1, List.replicate_succ', List.append_assoc]
  exact (runFor_add _ 1 hbefore).trans (runFor_one hlast)

end Schedule

/-! ### From the `SEND` to the schedule -/

/-- The engine `s` after the First Frame of a send of `p`. -/
def firstSent (s : State) (p : List Byte) : State := { s with
  tx := { TxHalf.reset with
    state := .waitFc, buf := p, len := p.length, off := s.cfg.cap - 2, sn := 1#4, tmr := s.cfg.nBsTicks
    total := s.cfg.tXferTicks }
  out := s.out ++ [.linkTx s.cfg.txAddr (ffOf s.cfg.cap p)] }

/-- R102: the `SEND` is accepted. -/
theorem step_send_first {s : State} {p : List Byte} {rest : List Stimulus} (hl : s.cfg.Legal) (hs : s.tx = .reset)
    (hfc : s.cfg.fcEn = true) (hmin : s.cfg.cap ≤ p.length) (hmax : p.length ≤ 4095)
    (hi : s.input = ⟨.send p, true⟩ :: rest) : step s = .next (offering rest true (firstSent s p)) := by
  have hff : ffOf s.cfg.cap p =
      BitVec.ofNat 8 (16 + p.length / 256) :: BitVec.ofNat 8 p.length :: p.take (s.cfg.cap - 2) :=
    Option.some.inj ((encFF_eq_ffOf hl.min_cap hmin hmax).symm.trans
      (encFF_of_fits (Nat.le_of_succ_le hl.min_cap) hmin hmax))
  obtain ⟨-, haccepted, -⟩ := sendOfALongPayloadStartsWithAFirstFrame s p true _ hl hi (by rw [hs]; rfl) hmin hmax
  rw [haccepted rfl hfc, firstSent, hff, hs]
  rfl

/-- R104: the peer's unlimited ContinueToSend is taken. -/
theorem step_continue_first {s : State} {p : List Byte} {st : Byte} {rest : List Stimulus} (hl : s.cfg.Legal)
    (hmin : s.cfg.cap ≤ p.length) :
    step (offering (arrives s.cfg [0x30#8, 0#8, st] :: rest) true (firstSent s p)) =
      .next (offering rest true (sending s p (stTicks st) 0 0)) := by
  have hdeliver : deliver (codecDecode s.cfg.cap [0x30#8, 0#8, st]) (offering rest true (firstSent s p)) =
      segContinue 0#8 st (offering rest true (firstSent s p)) := deliver_segmenter (fs := .cts) rfl
  have hframes : (transferFrames s.cfg.cap p).take (1 + 0) = [ffOf s.cfg.cap p] := by
    rw [transferFrames_of_long hl.min_cap hmin]; rfl
  refine (step_arrives (s := offering _ true (firstSent s p)) (d := [0x30#8, 0#8, st]) hl rfl hl.min_cap).trans
    (congrArg _ (hdeliver.trans ?_))
  rw [sending, sendingHalf, hframes, cfOffset, Nat.zero_mul]
  rfl

/-! ### The obligation -/

theorem sendScript_of_short {c : Config} {p : List Byte} (h : p.length ≤ c.cap - 1) (st : Byte) :
    sendScript c p st = [⟨.send p, true⟩] := by
  rw [sendScript, if_pos h]

theorem sendScript_of_long {c : Config} {p : List Byte} (h : c.cap - 1 < p.length) (st : Byte) :
    sendScript c p st = ⟨.send p, true⟩ :: arrives c [0x30#8, 0#8, st] ::
      List.replicate (1 + (cfCount c.cap p.length - 1) * max (stTicks st) 1) tickOk := by
  rw [sendScript, if_neg (Nat.not_le.2 h)]

/-- A payload that fits one frame is sent in the first step. -/
theorem runFor_sendScript_short {s : State} {p : List Byte} {st : Byte} {rest : List Stimulus} (hl : s.cfg.Legal)
    (hs : s.tx.state = .idle) (hp : p.length ≤ s.cfg.cap - 1) (hi : s.input = sendScript s.cfg p st ++ rest) :
    runFor (sendScript s.cfg p st).length s = .next (offering rest true (sent s p)) := by
  rw [sendScript_of_short hp] at hi ⊢
  refine (runFor_one (sendOfAShortPayloadIsOneSingleFrame s p true rest hl hi hs hp)).trans ?_
  rw [sent, transferFrames_of_short hp, List.append_assoc]
  rfl

section Long

variable {s : State} {p : List Byte} {st : Byte} {rest : List Stimulus} (h : Inv s) (hs : s.tx.state = .idle)
  (hr : s.rx.state = .idle) (hfc : s.cfg.fcEn = true) (hx : s.cfg.tXferTicks = 0) (hmin : s.cfg.cap ≤ p.length)
  (hmax : p.length ≤ 4095) (hi : s.input = sendScript s.cfg p st ++ rest)
include h hs hfc hmin hmax hi

/-- The first two steps of the script start the schedule. -/
theorem runFor_sendScript_two : runFor 2 s = .next (offering
    (List.replicate (1 + (cfCount s.cfg.cap p.length - 1) * max (stTicks st) 1) tickOk ++ rest) true
    (sending s p (stTicks st) 0 0)) := by
  obtain ⟨⟨hcap, -⟩, -⟩ := h.legal
  rw [sendScript_of_long (by omega)] at hi
  rw [runFor_succ 1 (step_send_first h.legal (h.tx.idle hs) hfc hmin hmax hi)]
  exact runFor_one (step_continue_first h.legal hmin)

include hr hx

/-- The state `j` ticks after the Flow Control step. -/
theorem runFor_sendScript_ticks {j : Nat} (hj : j < 1 + (cfCount s.cfg.cap p.length - 1) * max (stTicks st) 1) :
    ∃ xs, runFor (2 + j) s = .next (offering xs true
      (sending s p (stTicks st) (sentAfter (max (stTicks st) 1) j) (gapAfter (stTicks st) j))) := by
  have hstart := runFor_add 2 j (runFor_sendScript_two h hs hfc hmin hmax hi)
  rw [replicate_split (Nat.le_of_lt hj)] at hstart
  exact ⟨_, hstart.trans (runFor_scheduled h.legal hx hr hmin (by omega) _)⟩

/-- The whole script completes the send. -/
theorem runFor_sendScript_long :
    runFor (sendScript s.cfg p st).length s = .next (offering rest true (sent s p)) := by
  obtain ⟨⟨hcap, -⟩, -⟩ := h.legal
  have hlen : (sendScript s.cfg p st).length = 2 + (1 + (cfCount s.cfg.cap p.length - 1) * max (stTicks st) 1) := by
    rw [sendScript_of_long (by omega)]; simp; omega
  rw [hlen, runFor_add 2 _ (runFor_sendScript_two h hs hfc hmin hmax hi)]
  exact runFor_schedule h.legal hx hr hmin (h.tx.idle hs) (stTicks st) rest

end Long

theorem runFor_sendScript {s : State} {p : List Byte} {st : Byte} {rest : List Stimulus} (h : Inv s)
    (hs : s.tx.state = .idle) (hr : s.rx.state = .idle) (hfc : s.cfg.fcEn = true) (hx : s.cfg.tXferTicks = 0)
    (hmax : p.length ≤ 4095) (hi : s.input = sendScript s.cfg p st ++ rest) :
    runFor (sendScript s.cfg p st).length s = .next (offering rest true (sent s p)) := by
  by_cases hp : p.length ≤ s.cfg.cap - 1
  · exact runFor_sendScript_short h.legal hs hp hi
  · exact runFor_sendScript_long h hs hr hfc hx (by omega) hmax hi

/-- Settles O58: a Single Frame in one step, or the First Frame, the ContinueToSend and the schedule of the ticks, each of
which emits the next frame or counts the gap. -/
theorem completedSendEmitsItsFramesInOrder : Obligations.CompletedSendEmitsItsFramesInOrder := by
  unfold Obligations.CompletedSendEmitsItsFramesInOrder
  intro s p st rest h hs hr hfc hx hmax hi
  refine ⟨runFor_sendScript h hs hr hfc hx hmax hi, fun hmin => ⟨?_, fun j hj => ?_⟩⟩
  · have hcap : 3 ≤ s.cfg.cap := h.legal.min_cap
    rw [sendScript_of_long (by omega)]
    simp
    omega
  · obtain ⟨xs, hrun⟩ := runFor_sendScript_ticks h hs hr hfc hx hmin hmax hi hj
    exact ⟨_, hrun, rfl, rfl⟩

end Sys2Proof.Machine
end

section
/-!
SUPPORT. A completed reception and the round trip: the receive half frame by frame, the Flow Control answers block by
block, and the obligations O59 and O60.
-/

namespace Sys2Proof.Machine

/-! ### Decoding the frames of a transfer -/

section Decoding

variable {c : Config} {p : List Byte} (hl : c.Legal) (hmin : c.cap ≤ p.length)
include hl hmin

theorem ffOf_fits (hmax : p.length ≤ 4095) : (ffOf c.cap p).length ≤ c.cap := by
  obtain ⟨-, hfits, -⟩ := dataFrame_encFF hl (encFF_eq_ffOf hl.min_cap hmin hmax)
  exact hfits

theorem codecDecode_ffOf (hmax : p.length ≤ 4095) :
    codecDecode c.cap (ffOf c.cap p) = .ff p.length (p.take (c.cap - 2)) := by
  obtain ⟨-, hff, -⟩ := decodeInvertsTheFormatters c.cap hl.min_cap hl.max_cap
  exact hff _ _ _ (encFF_eq_ffOf hl.min_cap hmin hmax)

theorem cfOf_fits {k : Nat} (hk : k < cfCount c.cap p.length) : (cfOf c.cap p (k + 1)).length ≤ c.cap := by
  obtain ⟨-, hfits, -⟩ := dataFrame_encCF hl (encCF_eq_cfOf hl.min_cap hmin hk)
  exact hfits

theorem codecDecode_cfOf {k : Nat} (hk : k < cfCount c.cap p.length) : codecDecode c.cap (cfOf c.cap p (k + 1)) =
    .cf (BitVec.ofNat 4 (1 + k)) ((p.drop (cfOffset c.cap k)).take (c.cap - 1)) := by
  obtain ⟨-, -, hcf, -⟩ := decodeInvertsTheFormatters c.cap hl.min_cap hl.max_cap
  exact hcf _ _ _ (encCF_eq_cfOf hl.min_cap hmin hk)

end Decoding

theorem codecDecode_singleFrame {c : Config} (hl : c.Legal) {p : List Byte} (hp : p.length ≤ c.cap - 1) :
    codecDecode c.cap (BitVec.ofNat 8 p.length :: p) = .sf p := by
  obtain ⟨hsf, -⟩ := decodeInvertsTheFormatters c.cap hl.min_cap hl.max_cap
  exact hsf _ _ (encSF_of_fits hp)

/-! ### The Flow Control answers -/

/-- The ContinueToSend the Reassembler answers with. -/
def ctsAction (c : Config) : Action := .linkTx c.txAddr [0x30#8, c.rxBs, c.rxStmin]

/-- How many answers have gone out after the First Frame and `k` Consecutive Frames that do not complete (R122, R128). -/
def answersAfter (c : Config) (k : Nat) : Nat :=
  if c.fcEn = false then 0 else if c.rxBs.toNat = 0 then 1 else 1 + k / c.rxBs.toNat

/-- What the block counter then holds (R22). -/
def blockLeft (c : Config) (k : Nat) : Nat :=
  if c.fcEn = true ∧ c.rxBs ≠ 0#8 then c.rxBs.toNat - k % c.rxBs.toNat else c.rxBs.toNat

/-- R128: the next frame that does not complete moves the block on, with an answer where one is due. -/
theorem reaBlockFc_next {s : State} {k : Nat} (hok : s.linkOk = true) (hrem : s.rx.bsRem = blockLeft s.cfg k) :
    reaBlockFc s = { s with
      rx := { s.rx with bsRem := blockLeft s.cfg (k + 1) }
      out := s.out ++ List.replicate (answersAfter s.cfg (k + 1) - answersAfter s.cfg k) (ctsAction s.cfg) } := by
  by_cases hb : s.cfg.fcEn = true ∧ s.cfg.rxBs ≠ 0#8
  · obtain ⟨hfc, hbs⟩ := hb
    have hpos := (blocks_on hfc hbs).2
    have hlt := Nat.mod_lt k hpos
    have hleft (k : Nat) : blockLeft s.cfg k = s.cfg.rxBs.toNat - k % s.cfg.rxBs.toNat := if_pos ⟨hfc, hbs⟩
    have hanswers (k : Nat) : answersAfter s.cfg k = 1 + k / s.cfg.rxBs.toNat := by
      rw [answersAfter, if_neg (by simp [hfc]), if_neg (by omega)]
    rw [hleft] at hrem
    rw [hleft, hanswers, hanswers]
    by_cases hin : k % s.cfg.rxBs.toNat + 1 < s.cfg.rxBs.toNat
    · obtain ⟨hdiv, hmod⟩ := div_mod_succ_of_lt hin
      rw [reaBlockFc_inside hfc hbs (by omega), hdiv, hmod, hrem, Nat.sub_self, List.replicate_zero, List.append_nil,
        Nat.sub_sub]
    · obtain ⟨hdiv, hmod⟩ := div_mod_succ_of_eq (a := k) (b := s.cfg.rxBs.toNat) (by omega)
      rw [reaBlockFc_end hfc hbs (by omega) hok, hdiv, hmod, ← Nat.add_assoc, Nat.add_sub_cancel_left]
      rfl
  · have hno : s.cfg.fcEn = false ∨ s.cfg.rxBs = 0#8 := by
      rw [not_and_or, Bool.not_eq_true, not_not] at hb
      exact hb
    have hsame : answersAfter s.cfg (k + 1) = answersAfter s.cfg k := by
      rcases hno with h | h <;> simp [answersAfter, h]
    rw [reaBlockFc_of_no_blocks hno, hsame, Nat.sub_self, blockLeft, if_neg hb]
    rw [blockLeft, if_neg hb] at hrem
    simp [← hrem]

theorem answersAfter_mono (c : Config) (k : Nat) : answersAfter c k ≤ answersAfter c (k + 1) := by
  unfold answersAfter
  split
  · exact Nat.le_refl _
  · split
    · exact Nat.le_refl _
    · exact Nat.add_le_add_left (Nat.div_le_div_right (Nat.le_succ k)) 1

/-! ### The reception in progress -/

/-- The receive half after the First Frame and `k` Consecutive Frames of `p`. -/
def receivingHalf (c : Config) (p : List Byte) (k : Nat) : RxHalf where
  state := .awaitCf
  buf := p.take (cfOffset c.cap k)
  len := p.length
  sn := BitVec.ofNat 4 (1 + k)
  tmr := c.nCrTicks
  bsRem := blockLeft c k

/-- The engine `s` with a reception of `p` in progress, `k` Consecutive Frames in. -/
def receiving (s : State) (p : List Byte) (k : Nat) : State := { s with
  rx := receivingHalf s.cfg p k
  out := s.out ++ List.replicate (answersAfter s.cfg k) (ctsAction s.cfg) }

/-- The engine `s` after a completed reception of `p`. -/
def received (s : State) (p : List Byte) : State :=
  { s with out := s.out ++ List.replicate (flowAnswers s.cfg p) (ctsAction s.cfg) ++ [.rxPayload p] }

/-- The step on a frame that arrives, given `decode`'s verdict on it. -/
theorem step_offering_arrives {s : State} {d : List Byte} {v : Verdict} (hl : s.cfg.Legal) (hd : d.length ≤ s.cfg.cap)
    (hv : codecDecode s.cfg.cap d = v) (ok : Bool) (rest : List Stimulus) :
    step (offering (arrives s.cfg d :: rest) ok s) = .next (deliver v (offering rest true s)) := by
  rw [← hv]
  exact step_arrives (s := offering _ ok s) hl rfl hd

section Receiving

variable {s : State} {p : List Byte} (hl : s.cfg.Legal) (hmin : s.cfg.cap ≤ p.length)
include hl hmin

/-- R122: the First Frame starts the reception. -/
theorem step_receive_first (hr : s.rx.state = .idle) (hmax : p.length ≤ s.cfg.rxBufCap) (ok : Bool)
    (rest : List Stimulus) : step (offering (arrives s.cfg (ffOf s.cfg.cap p) :: rest) ok s) =
      .next (offering rest true (receiving s p 0)) := by
  have hmax' : p.length ≤ 4095 := Nat.le_trans hmax hl.rxBufCap_le
  have hchunk : (p.take (s.cfg.cap - 2)).length ≤ p.length := List.length_take_le' _ _
  have hstarted : rxStarted s.cfg p.length (p.take (s.cfg.cap - 2)) = receivingHalf s.cfg p 0 := by
    rw [rxStarted_of_short hchunk, receivingHalf, cfOffset, Nat.zero_mul, Nat.add_zero, blockLeft, Nat.zero_mod,
      Nat.sub_zero, ite_self]
  have hanswers : answersAfter s.cfg 0 = if s.cfg.fcEn = true then 1 else 0 := by
    cases hfc : s.cfg.fcEn <;> simp [answersAfter, hfc]
  refine (step_offering_arrives hl (ffOf_fits hl hmin hmax') (codecDecode_ffOf hl hmin hmax') ok rest).trans
    (congrArg _ ((reaFirst_of_fits (s := offering rest true s) hr hmax _).trans ?_))
  rw [receiving, hanswers, ← hstarted]
  by_cases hfc : s.cfg.fcEn = true
  · rw [if_pos hfc]
    exact (if_pos hfc).trans (if_pos rfl)
  · rw [if_neg hfc, List.replicate_zero, List.append_nil]
    exact if_neg hfc

/-- R126, R128: a Consecutive Frame that does not complete. -/
theorem step_receive_next {k : Nat} (hk : k + 1 < cfCount s.cfg.cap p.length) (ok : Bool) (rest : List Stimulus) :
    step (offering (arrives s.cfg (cfOf s.cfg.cap p (k + 1)) :: rest) ok (receiving s p k)) =
      .next (offering rest true (receiving s p (k + 1))) := by
  have hk' := Nat.lt_of_succ_lt hk
  have hoff := (lt_cfCount_iff hl.min_cap hmin (k + 1)).1 hk
  rw [cfOffset_succ] at hoff
  have hshort : (p.take (cfOffset s.cfg.cap k)).length +
      ((p.drop (cfOffset s.cfg.cap k)).take (s.cfg.cap - 1)).length < p.length := by
    rw [List.length_take, List.length_take, List.length_drop]; omega
  have hsn : BitVec.ofNat 4 (1 + k) + 1#4 = BitVec.ofNat 4 (1 + (k + 1)) := by rw [← BitVec.ofNat_add]; rfl
  have hhalf : receivingHalf s.cfg p (k + 1) = { receivingHalf s.cfg p k with
      buf := p.take (cfOffset s.cfg.cap k) ++ (p.drop (cfOffset s.cfg.cap k)).take (s.cfg.cap - 1)
      sn := BitVec.ofNat 4 (1 + k) + 1#4, bsRem := blockLeft s.cfg (k + 1) } := by
    rw [hsn, ← List.take_add, ← cfOffset_succ]; rfl
  have hout : s.out ++ List.replicate (answersAfter s.cfg (k + 1)) (ctsAction s.cfg) =
      s.out ++ List.replicate (answersAfter s.cfg k) (ctsAction s.cfg) ++
        List.replicate (answersAfter s.cfg (k + 1) - answersAfter s.cfg k) (ctsAction s.cfg) := by
    rw [List.append_assoc, List.replicate_append_replicate, Nat.add_sub_cancel' (answersAfter_mono s.cfg k)]
  refine (step_offering_arrives (s := receiving s p k) hl (cfOf_fits hl hmin hk') (codecDecode_cfOf hl hmin hk') ok
    rest).trans (congrArg _ ?_)
  refine (reaConsecutive_of_sn (s := offering rest true (receiving s p k)) rfl _).trans
    ((reaExpected_of_short hshort).trans ((reaBlockFc_next (k := k) rfl rfl).trans ?_))
  conv_rhs => rw [receiving, hhalf, hout]
  rfl

theorem flowAnswers_eq : flowAnswers s.cfg p = answersAfter s.cfg (cfCount s.cfg.cap p.length - 1) := by
  have hlong : ¬ p.length ≤ s.cfg.cap - 1 := by have := hl.min_cap; omega
  simp only [flowAnswers, answersAfter, hlong, false_or]

/-- R127: the last Consecutive Frame completes the reception. -/
theorem step_receive_last (hr : s.rx = .reset) {k : Nat} (hk : k + 1 = cfCount s.cfg.cap p.length) (ok : Bool)
    (rest : List Stimulus) :
    step (offering (arrives s.cfg (cfOf s.cfg.cap p (k + 1)) :: rest) ok (receiving s p k)) =
      .next (offering rest true (received s p)) := by
  have hk' : k < cfCount s.cfg.cap p.length := by omega
  have hoff := (lt_cfCount_iff hl.min_cap hmin k).1 hk'
  have hend := (lt_cfCount_iff hl.min_cap hmin (k + 1)).not.1 (by omega)
  rw [cfOffset_succ] at hend
  have hfill : (p.take (cfOffset s.cfg.cap k)).length = cfOffset s.cfg.cap k := by rw [List.length_take]; omega
  have hbytes : p.length ≤ (p.take (cfOffset s.cfg.cap k)).length +
      ((p.drop (cfOffset s.cfg.cap k)).take (s.cfg.cap - 1)).length := by
    rw [hfill, List.length_take, List.length_drop]; omega
  have hpayload : p.take (cfOffset s.cfg.cap k) ++ ((p.drop (cfOffset s.cfg.cap k)).take (s.cfg.cap - 1)).take
      (p.length - (p.take (cfOffset s.cfg.cap k)).length) = p := by
    have hrest : (p.drop (cfOffset s.cfg.cap k)).take (min (p.length - cfOffset s.cfg.cap k) (s.cfg.cap - 1)) =
        p.drop (cfOffset s.cfg.cap k) := List.take_of_length_le (by rw [List.length_drop]; omega)
    rw [hfill, List.take_take, hrest, List.take_append_drop]
  refine (step_offering_arrives (s := receiving s p k) hl (cfOf_fits hl hmin hk') (codecDecode_cfOf hl hmin hk') ok
    rest).trans (congrArg _ ?_)
  refine (reaConsecutive_of_sn (s := offering rest true (receiving s p k)) rfl _).trans
    ((reaExpected_of_completing (List.length_take_le' _ _) hbytes).trans ?_)
  rw [received, flowAnswers_eq hl hmin, ← hk, Nat.add_sub_cancel]
  refine (congrArg (fun q => endReception (.rxPayload q) (offering rest true (receiving s p k))) hpayload).trans ?_
  rw [endReception, clearRx, ← hr]
  rfl

end Receiving

/-- R121: a payload that fits one frame is delivered in one step. -/
theorem step_receive_single {s : State} {p : List Byte} (hl : s.cfg.Legal) (hp : p.length ≤ s.cfg.cap - 1)
    (hr : s.rx.state = .idle) (ok : Bool) (rest : List Stimulus) :
    step (offering (arrives s.cfg (BitVec.ofNat 8 p.length :: p) :: rest) ok s) =
      .next (offering rest true (received s p)) := by
  have hfits : (BitVec.ofNat 8 p.length :: p).length ≤ s.cfg.cap := by
    have := hl.min_cap
    rw [List.length_cons]
    omega
  have hnone : flowAnswers s.cfg p = 0 := if_pos (.inl hp)
  refine (step_offering_arrives hl hfits (codecDecode_singleFrame hl hp) ok rest).trans
    (congrArg _ ((reaSingle_of_idle (s := offering rest true s) hr p).trans ?_))
  rw [received, hnone, List.replicate_zero, List.append_nil]
  rfl

/-! ### The whole reception -/

/-- The receiving engine after the first `i` frames of a transfer of `p` that needs segmenting. -/
def receptionAt (s : State) (p : List Byte) : Nat → State
  | 0 => s
  | k + 1 => receiving s p k

theorem runFor_transferFrames_long {s : State} {p : List Byte} {rest : List Stimulus} (h : Inv s)
    (hr : s.rx.state = .idle) (hmin : s.cfg.cap ≤ p.length) (hmax : p.length ≤ s.cfg.rxBufCap)
    (hi : s.input = (transferFrames s.cfg.cap p).map (arrives s.cfg) ++ rest) :
    runFor (transferFrames s.cfg.cap p).length s = .next (offering rest true (received s p)) := by
  have hcap : 3 ≤ s.cfg.cap := h.legal.min_cap
  obtain ⟨k, hk⟩ : ∃ k, k + 1 = cfCount s.cfg.cap p.length := ⟨_, Nat.sub_add_cancel (cfCount_pos hcap hmin)⟩
  have hframes := transferFrames_eq_take_append hcap hmin hk
  generalize hinit : ((transferFrames s.cfg.cap p).take (1 + k)).map (arrives s.cfg) = xs
  have hlen : xs.length = k + 1 := by
    rw [← hinit, List.length_map, List.length_take, length_transferFrames hcap hmin]; omega
  have hi' : s.input = xs ++ (arrives s.cfg (cfOf s.cfg.cap p (k + 1)) :: rest) := by
    rw [hi, hframes, List.map_append, hinit, List.append_assoc]; rfl
  have hstep (i : Nat) (hi : i < xs.length) (ok : Bool) (rest : List Stimulus) :
      step (offering (xs[i] :: rest) ok (receptionAt s p i)) = .next (offering rest true (receptionAt s p (i + 1))) := by
    subst hinit
    cases i with
    | zero =>
      simp only [transferFrames_of_long hcap hmin, List.getElem_map, List.getElem_take, List.getElem_cons_zero]
      exact step_receive_first h.legal hmin hr hmax ok rest
    | succ j =>
      simp only [transferFrames_of_long hcap hmin, List.getElem_map, List.getElem_take, List.getElem_cons_succ,
        List.getElem_range]
      exact step_receive_next h.legal hmin (by omega) ok rest
  have hrun := runFor_offering (receptionAt s p) xs hstep s.linkOk (arrives s.cfg (cfOf s.cfg.cap p (k + 1)) :: rest)
  rw [receptionAt, ← eq_offering hi', hlen] at hrun
  rw [length_transferFrames hcap hmin, ← hk, Nat.add_comm 1, runFor_add _ 1 hrun]
  exact runFor_one (step_receive_last h.legal hmin (h.rx.idle hr) hk _ rest)

theorem runFor_transferFrames {s : State} {p : List Byte} {rest : List Stimulus} (h : Inv s) (hr : s.rx.state = .idle)
    (hmax : p.length ≤ s.cfg.rxBufCap)
    (hi : s.input = (transferFrames s.cfg.cap p).map (arrives s.cfg) ++ rest) :
    runFor (transferFrames s.cfg.cap p).length s = .next (offering rest true (received s p)) := by
  by_cases hp : p.length ≤ s.cfg.cap - 1
  · rw [transferFrames_of_short hp] at hi ⊢
    have hstep := step_receive_single h.legal hp hr s.linkOk rest
    have hi' : s.input = arrives s.cfg (BitVec.ofNat 8 p.length :: p) :: rest := hi
    rw [← eq_offering hi'] at hstep
    exact runFor_one hstep
  · exact runFor_transferFrames_long h hr (by omega) hmax hi

/-- What a completed send emits. -/
theorem emitted_sent (s : State) (p : List Byte) (xs : List Stimulus) (ok : Bool) :
    emitted s (offering xs ok (sent s p)) =
      (transferFrames s.cfg.cap p).map (.linkTx s.cfg.txAddr) ++ [.txDone .ok] :=
  emitted_of_out (List.append_assoc ..)

/-- What a completed reception emits. -/
theorem emitted_received (s : State) (p : List Byte) (xs : List Stimulus) (ok : Bool) :
    emitted s (offering xs ok (received s p)) =
      List.replicate (flowAnswers s.cfg p) (ctsAction s.cfg) ++ [.rxPayload p] :=
  emitted_of_out (List.append_assoc ..)

/-! ### The obligations -/

/-- Settles O59: a Single Frame in one step, or the First Frame and the Consecutive Frames one by one, the last of which
completes the reception. -/
theorem receivedFramesDeliverThePayload : Obligations.ReceivedFramesDeliverThePayload := by
  unfold Obligations.ReceivedFramesDeliverThePayload
  intro s p rest h hr hmax hi
  exact runFor_transferFrames h hr hmax hi

/-- Settles O60: the completed send emits the transfer's frames and `TX_DONE`, and the frames deliver the payload. -/
theorem payloadsSurviveTheRoundTrip : Obligations.PayloadsSurviveTheRoundTrip := by
  unfold Obligations.PayloadsSurviveTheRoundTrip
  intro a b p st ha hb hatx harx hbrx hcap hfc hx hmax hfits hi
  have hsend := runFor_sendScript ha hatx harx hfc hx hmax (hi.trans (List.append_nil _).symm)
  rw [← hi] at hsend
  have hframes : (emitted a (offering [] true (sent a p))).filterMap Action.frame? = transferFrames b.cfg.cap p := by
    have hframe : Action.frame? ∘ Action.linkTx a.cfg.txAddr = some := rfl
    rw [emitted_sent, List.filterMap_append, List.filterMap_map, hframe, List.filterMap_some, hcap]
    exact List.append_nil _
  refine ⟨_, hsend, fun rest hb_in => ?_⟩
  rw [hframes] at hb_in ⊢
  refine ⟨_, runFor_transferFrames hb hbrx hfits hb_in, hb.rx.idle hbrx, rfl, rfl, ?_⟩
  rw [emitted_received, List.filter_append, List.filter_replicate]
  rfl

end Sys2Proof.Machine
end
